-- ==== Sys2Proof/Word.lean ====
section
/-!
DEFINITION. The bit widths of the core: bytes, 16-bit words, and the small finite index types (00_scope.md R8, R9;
30_encoding.md R55, R57). All values are unsigned.
-/
namespace Sys2Proof

/-- An 8-bit value (`u8`): general registers, timers, memory bytes, the immediate `kk`. -/
abbrev Byte := BitVec 8

/-- A 16-bit value (`u16`): `I`, `pc`, return addresses, instruction words. -/
abbrev Word := BitVec 16

/-- A 12-bit address operand `nnn`. -/
abbrev Addr := BitVec 12

/-- The index of a general register, `V[0]` to `V[15]` (fields `x` and `y`). -/
abbrev Reg := Fin 16

/-- The row count `n` of `Dxyn`, 0..15. -/
abbrev RowCount := Fin 16

/-- A key code of the hexadecimal keypad, 0..15 (10_state.md R31). -/
abbrev KeyCode := Fin 16

/-- The flag register `VF`, that is `V[15]` (10_state.md R16). -/
abbrev regF : Reg := 15

end Sys2Proof
end

