-- ==== Sys2Proof/WellFormed.lean ====
section
/-!
DEFINITION. Well-formed instructions, and the opcode table as data. Operand ranges are in the operand types, so the one
check left is that an UNKNOWN word is a word that no row of the table matches (30_encoding.md R61, R62). The rows are
written from spec/opcode_table.json and not from the decoder, so that the two can be held against each other.
-/
namespace Sys2Proof

/-- One row of the opcode table: a word belongs to it when its masked bits are the pattern. -/
structure TableRow where
  pattern : Word
  mask    : Word
  deriving DecidableEq, Repr

/-- Whether a word belongs to a row. -/
def TableRow.covers (row : TableRow) (w : Word) : Bool := (w &&& row.mask) == row.pattern

/-- The rows of classes 0 to 7 (30_encoding.md R58). -/
def tableRowsLow : List TableRow :=
  [⟨0x00E0, 0xFFFF⟩, ⟨0x00EE, 0xFFFF⟩, ⟨0x1000, 0xF000⟩, ⟨0x2000, 0xF000⟩, ⟨0x3000, 0xF000⟩, ⟨0x4000, 0xF000⟩,
   ⟨0x5000, 0xF00F⟩, ⟨0x6000, 0xF000⟩, ⟨0x7000, 0xF000⟩]

/-- The rows of classes 8 to D. -/
def tableRowsMid : List TableRow :=
  [⟨0x8000, 0xF00F⟩, ⟨0x8001, 0xF00F⟩, ⟨0x8002, 0xF00F⟩, ⟨0x8003, 0xF00F⟩, ⟨0x8004, 0xF00F⟩, ⟨0x8005, 0xF00F⟩,
   ⟨0x8006, 0xF00F⟩, ⟨0x8007, 0xF00F⟩, ⟨0x800E, 0xF00F⟩, ⟨0x9000, 0xF00F⟩, ⟨0xA000, 0xF000⟩, ⟨0xB000, 0xF000⟩,
   ⟨0xC000, 0xF000⟩, ⟨0xD000, 0xF000⟩]

/-- The rows of classes E and F. -/
def tableRowsHigh : List TableRow :=
  [⟨0xE09E, 0xF0FF⟩, ⟨0xE0A1, 0xF0FF⟩, ⟨0xF007, 0xF0FF⟩, ⟨0xF00A, 0xF0FF⟩, ⟨0xF015, 0xF0FF⟩, ⟨0xF018, 0xF0FF⟩,
   ⟨0xF01E, 0xF0FF⟩, ⟨0xF029, 0xF0FF⟩, ⟨0xF033, 0xF0FF⟩, ⟨0xF055, 0xF0FF⟩, ⟨0xF065, 0xF0FF⟩]

/-- The 34 instruction rows, the fallback left out. -/
def tableRows : List TableRow := tableRowsLow ++ tableRowsMid ++ tableRowsHigh

/-- Whether some instruction row covers the word. -/
def recognised (w : Word) : Bool := tableRows.any fun row => row.covers w

/-- An instruction is well-formed unless it is an UNKNOWN word that the table does recognise. -/
def Instr.wellFormed : Instr → Bool
  | .unknown w => !recognised w
  | .cls | .ret | .jp _ | .call _ | .seImm _ _ | .sneImm _ _ | .seReg _ _ | .ldImm _ _ | .addImm _ _ | .ldReg _ _
  | .orReg _ _ | .andReg _ _ | .xorReg _ _ | .addReg _ _ | .sub _ _ | .shr _ _ | .subn _ _ | .shl _ _ | .sneReg _ _
  | .ldI _ | .jpV0 _ | .rnd _ _ | .drw _ _ _ | .skp _ | .sknp _ | .ldVxDt _ | .ldVxK _ | .ldDtVx _ | .ldStVx _
  | .addIVx _ | .ldFVx _ | .ldBVx _ | .ldMemVx _ | .ldVxMem _ => true

end Sys2Proof
end

