-- ==== Sys2Proof/Decode.lean ====
section
/-!
DEFINITION. Decoding (30_encoding.md R55, R58 to R60), total on any bytes, and the encoder written from the formats of
R56. The word-level decoder is total; the byte-level one refuses, by name, only input shorter than one word.
-/
namespace Sys2Proof

/-- `w[15:12]`, the opcode class. -/
def fieldClass (w : Word) : Nat := w.toNat / 4096

/-- `w[11:8]`, the register operand X. -/
def fieldX (w : Word) : Reg := ⟨w.toNat / 256 % 16, Nat.mod_lt _ (by decide)⟩

/-- `w[7:4]`, the register operand Y. -/
def fieldY (w : Word) : Reg := ⟨w.toNat / 16 % 16, Nat.mod_lt _ (by decide)⟩

/-- `w[3:0]`, the nibble operand or sub-opcode. -/
def fieldN (w : Word) : RowCount := ⟨w.toNat % 16, Nat.mod_lt _ (by decide)⟩

/-- `w[7:0]`, the immediate byte or sub-opcode. -/
def fieldKk (w : Word) : Byte := BitVec.ofNat 8 w.toNat

/-- `w[11:0]`, the address operand. -/
def fieldNnn (w : Word) : Addr := BitVec.ofNat 12 w.toNat

/-- Class 8, split by the low nibble (R60). -/
def decodeClass8 (w : Word) : Instr :=
  match (fieldN w).val with
  | 0x0 => .ldReg (fieldX w) (fieldY w)
  | 0x1 => .orReg (fieldX w) (fieldY w)
  | 0x2 => .andReg (fieldX w) (fieldY w)
  | 0x3 => .xorReg (fieldX w) (fieldY w)
  | 0x4 => .addReg (fieldX w) (fieldY w)
  | 0x5 => .sub (fieldX w) (fieldY w)
  | 0x6 => .shr (fieldX w) (fieldY w)
  | 0x7 => .subn (fieldX w) (fieldY w)
  | 0xE => .shl (fieldX w) (fieldY w)
  | _ => .unknown w

/-- Class E, split by the low byte (R60). -/
def decodeClassE (w : Word) : Instr :=
  match (fieldKk w).toNat with
  | 0x9E => .skp (fieldX w)
  | 0xA1 => .sknp (fieldX w)
  | _ => .unknown w

/-- Class F, split by the low byte (R60). -/
def decodeClassF (w : Word) : Instr :=
  match (fieldKk w).toNat with
  | 0x07 => .ldVxDt (fieldX w)
  | 0x0A => .ldVxK (fieldX w)
  | 0x15 => .ldDtVx (fieldX w)
  | 0x18 => .ldStVx (fieldX w)
  | 0x1E => .addIVx (fieldX w)
  | 0x29 => .ldFVx (fieldX w)
  | 0x33 => .ldBVx (fieldX w)
  | 0x55 => .ldMemVx (fieldX w)
  | 0x65 => .ldVxMem (fieldX w)
  | _ => .unknown w

/-- The decode procedure of R58, a total function of the word. Classes 5 and 9 are decoded strictly (R59). UNVERIFIED
(the spec's decision D5): log 9. -/
def decodeWord (w : Word) : Instr :=
  if w = 0x00E0 then .cls
  else if w = 0x00EE then .ret
  else
    match fieldClass w with
    | 0x1 => .jp (fieldNnn w)
    | 0x2 => .call (fieldNnn w)
    | 0x3 => .seImm (fieldX w) (fieldKk w)
    | 0x4 => .sneImm (fieldX w) (fieldKk w)
    | 0x5 => if (fieldN w).val = 0 then .seReg (fieldX w) (fieldY w) else .unknown w
    | 0x6 => .ldImm (fieldX w) (fieldKk w)
    | 0x7 => .addImm (fieldX w) (fieldKk w)
    | 0x8 => decodeClass8 w
    | 0x9 => if (fieldN w).val = 0 then .sneReg (fieldX w) (fieldY w) else .unknown w
    | 0xA => .ldI (fieldNnn w)
    | 0xB => .jpV0 (fieldNnn w)
    | 0xC => .rnd (fieldX w) (fieldKk w)
    | 0xD => .drw (fieldX w) (fieldY w) (fieldN w)
    | 0xE => decodeClassE w
    | 0xF => decodeClassF w
    | _ => .unknown w

/-- Why the byte-level decoder refuses. -/
inductive DecodeError where
  /-- Fewer than two bytes are left: no instruction word. -/
  | truncated
  deriving DecidableEq, Repr

/-- A word from its two bytes in memory order: the byte at the lower address is the high one (20_memory.md R39). -/
def wordOfBytes (hi lo : Byte) : Word := BitVec.ofNat 16 (hi.toNat * 256 + lo.toNat)

/-- The byte of a word that stands at the lower address. -/
def highByte (w : Word) : Byte := BitVec.ofNat 8 (w.toNat / 256)

/-- The byte of a word that stands at the higher address. -/
def lowByte (w : Word) : Byte := BitVec.ofNat 8 w.toNat

/-- One instruction from the front of a byte stream, and the bytes after it (R54: every instruction is two bytes). -/
def decode : List Byte → Except DecodeError (Instr × List Byte)
  | hi :: lo :: rest => .ok (decodeWord (wordOfBytes hi lo), rest)
  | [_] => .error .truncated
  | [] => .error .truncated

/-- The word of format NNN (R56): class `c`, address operand. -/
def wordNnn (c : Nat) (nnn : Addr) : Word := BitVec.ofNat 16 (c * 4096 + nnn.toNat)

/-- The word of format XKK, and of format XFF with its low byte fixed. -/
def wordXkk (c : Nat) (x : Reg) (kk : Byte) : Word := BitVec.ofNat 16 (c * 4096 + x.val * 256 + kk.toNat)

/-- The word of format XYN, and of format XY0 with its low nibble fixed. -/
def wordXyn (c : Nat) (x y : Reg) (n : RowCount) : Word :=
  BitVec.ofNat 16 (c * 4096 + x.val * 256 + y.val * 16 + n.val)

/-- The word of an instruction, from the formats of R56 and the opcode table. -/
def encode : Instr → Word
  | .cls => 0x00E0
  | .ret => 0x00EE
  | .jp nnn => wordNnn 0x1 nnn
  | .call nnn => wordNnn 0x2 nnn
  | .seImm x kk => wordXkk 0x3 x kk
  | .sneImm x kk => wordXkk 0x4 x kk
  | .seReg x y => wordXyn 0x5 x y 0
  | .ldImm x kk => wordXkk 0x6 x kk
  | .addImm x kk => wordXkk 0x7 x kk
  | .ldReg x y => wordXyn 0x8 x y 0x0
  | .orReg x y => wordXyn 0x8 x y 0x1
  | .andReg x y => wordXyn 0x8 x y 0x2
  | .xorReg x y => wordXyn 0x8 x y 0x3
  | .addReg x y => wordXyn 0x8 x y 0x4
  | .sub x y => wordXyn 0x8 x y 0x5
  | .shr x y => wordXyn 0x8 x y 0x6
  | .subn x y => wordXyn 0x8 x y 0x7
  | .shl x y => wordXyn 0x8 x y 0xE
  | .sneReg x y => wordXyn 0x9 x y 0
  | .ldI nnn => wordNnn 0xA nnn
  | .jpV0 nnn => wordNnn 0xB nnn
  | .rnd x kk => wordXkk 0xC x kk
  | .drw x y n => wordXyn 0xD x y n
  | .skp x => wordXkk 0xE x 0x9E
  | .sknp x => wordXkk 0xE x 0xA1
  | .ldVxDt x => wordXkk 0xF x 0x07
  | .ldVxK x => wordXkk 0xF x 0x0A
  | .ldDtVx x => wordXkk 0xF x 0x15
  | .ldStVx x => wordXkk 0xF x 0x18
  | .addIVx x => wordXkk 0xF x 0x1E
  | .ldFVx x => wordXkk 0xF x 0x29
  | .ldBVx x => wordXkk 0xF x 0x33
  | .ldMemVx x => wordXkk 0xF x 0x55
  | .ldVxMem x => wordXkk 0xF x 0x65
  | .unknown w => w

/-- The bytes of an instruction in memory order. -/
def encodeBytes (i : Instr) : List Byte := [highByte (encode i), lowByte (encode i)]

/-- The instruction word of a table row's bits: the low `nbits` bits of `w`, every bit above them 0. -/
def tableWord (nbits w : Nat) : Word := BitVec.ofNat 16 (w % 2 ^ nbits)

/-- The instruction the byte decoder reads from the bits `w` of a table row, laid out as the hardware stores them. -/
def decodeTableWord (nbits w : Nat) : Option Instr :=
  match decode [highByte (tableWord nbits w), lowByte (tableWord nbits w)] with
  | .ok (instr, _) => some instr
  | .error _ => none

end Sys2Proof
end

