-- ==== Sys2Proof/Config.lean ====
section
/-!
DEFINITION. The implementation parameters of 00_scope.md R7: constants where the spec fixes a value or a default, and
opaque constants, with no body, where it leaves one OPEN. Nothing in Lean can evaluate an opaque constant, so a claim
about it holds for every value it may have.
-/
namespace Sys2Proof.Config

/-- `MEM_SIZE`, 4096 bytes. -/
abbrev memSize : Nat := 4096

/-- `PROG_BASE`, where a program image and the first fetch stand. -/
abbrev progBase : Nat := 0x200

/-- `W`, the columns of the display. -/
abbrev width : Nat := 64

/-- `H`, the rows of the display. -/
abbrev height : Nat := 32

/-- Bytes in one font glyph. -/
abbrev glyphSize : Nat := 5

/-- Bytes in the font: 16 glyphs. -/
abbrev fontSize : Nat := 80

/-- `PC_FETCH_LIMIT`: the default 4094 (90_conflicts.md C1, D8). UNVERIFIED (the spec's decision D8): log 5. Unsafe at
`pc = 4094` only. `Machine.cycleWith` takes the limit as an argument, so that the permitted 4095 is covered too. -/
abbrev pcFetchLimit : Nat := 4094

/-- `STACK_LIMIT`: none (D3). UNVERIFIED (the spec's decision D3): log 4, unsafe for deep recursion. `Machine.callWith`
takes the limit as an argument, so that the bounded setting is covered too. -/
abbrev stackLimit : Option Nat := none

/-- The choices of `FONT_BASE`: `FONT_BASE + 80 <= PROG_BASE` says 0..432 (D1). OPEN, log 1, safe. -/
opaque fontBaseIndex : Fin 433

/-- `FONT_BASE`, the address of the font table. -/
def fontBase : Nat := fontBaseIndex.val

/-- `FONT_DATA`, the 80 bytes of the font table (D2). OPEN, log 2, safe. -/
opaque fontData : Vector Byte 80

/-- What a store into the font region does (20_memory.md R44). -/
inductive FontWrite where
  /-- The byte is stored. -/
  | store
  /-- Nothing changes and the instruction continues. -/
  | discard
  deriving DecidableEq, Repr, Inhabited

/-- `FONT_WRITE` (90_conflicts.md C5, D10). OPEN, log 3, safe. -/
opaque fontWrite : FontWrite

/-- The random byte of draw number `k` (42_alu.md R97, D20): a free value, with no distribution and no relation between
draws. Log 6, safe. -/
opaque randomByte (k : Nat) : Byte

/-- Whether the trace listing shows memory before or after the cycle's instruction (D25). -/
inductive TraceSnapshot where
  | before
  | after
  deriving DecidableEq, Repr, Inhabited

/-- `TRACE_SNAPSHOT` (40_cycle_driver.md R76, D25). OPEN, log 7, safe: no state effect. -/
opaque traceSnapshot : TraceSnapshot

/-- `TRACE_FORMAT`, the spelling of one listed instruction (R66, R76, D25). OPEN, log 7, safe: no state effect. -/
opaque traceFormat (i : Instr) : String

end Sys2Proof.Config
end

