-- ==== Sys2Proof/Machine/State.lean ====
section
/-!
DEFINITION. The architectural state of 10_state.md R15 as plain data, the reasons a step can stop, and the state after
reset (70_reset_and_hazards.md R141, R144). No operations here: they stand in Machine/Ops.lean.
-/
namespace Sys2Proof.Machine

/-- The halt reasons of 60_exceptions.md R117. A halt is a next state of the machine, with this reason in `MODE`; it is
not a `Fault`. -/
inductive HaltReason where
  /-- The fetch check fails: `pc >= PC_FETCH_LIMIT` (R68). -/
  | invalidProgramCounter
  /-- `00EE` on an empty stack (R77). -/
  | stackUnderflow
  /-- `Fx33`, `Fx55`, `Fx65` or `Dxyn` would touch an address at or above `MEM_SIZE` (R102, R103, R104, R107). -/
  | invalidMemoryAccess
  /-- `2nnn` on a full stack, under a bounded `STACK_LIMIT` only (R79). -/
  | stackOverflow
  /-- `loadProgram` of more than 3584 bytes (R143). -/
  | programTooLarge
  /-- The host's `halt(s)` (R133). -/
  | external (message : String)
  deriving DecidableEq, Repr

/-- The execution mode (R29): three values that exclude each other. UNVERIFIED (the spec's decision D11): log 13. -/
inductive Mode where
  /-- Cycles execute instructions. -/
  | running
  /-- The machine waits for a key that will be written to `V[target]`. -/
  | blocked (target : Reg)
  /-- The terminal mode. -/
  | halted (reason : HaltReason)
  deriving DecidableEq, Repr

/-- `MEM` as a list of cells in one canonical form: addresses strictly rising and below `MEM_SIZE`, and no cell equal to
what an unlisted address reads as (`Memory.wf` in Machine/Ops.lean). -/
abbrev Memory := List Host.Cell

/-- `DISP`: rows of pixels (R27). `true` is a set pixel. -/
abbrev Display := Vector (Vector Bool 64) 32

/-- The display with every pixel 0. -/
def Display.blank : Display := Vector.replicate 32 (Vector.replicate 64 false)

/-- The core's state. Every field but `draws` is an element of R15. -/
structure State where
  /-- `MEM`. -/
  mem : Memory
  /-- `V[0..15]`. -/
  v : Vector Byte 16
  /-- `I`. -/
  i : Word
  /-- `pc`. -/
  pc : Word
  /-- `STACK`, the most recently pushed return address last. -/
  stack : List Word
  /-- `DT`, the delay timer. -/
  dt : Byte
  /-- `ST`, the sound timer. -/
  st : Byte
  /-- `DISP`. -/
  disp : Display
  /-- `DIRTY`. -/
  dirty : Bool
  /-- `MODE`. -/
  mode : Mode
  /-- `KEY`. -/
  key : Option KeyCode
  /-- The MODEL'S own field, not the spec's: how many random bytes have been drawn, the index of the next free value
  (log 6). -/
  draws : Nat
  deriving DecidableEq, Repr

/-- Why the machine stops with a fault. No rule of the spec does: every fatal condition is a halt, a next state (log 28). -/
inductive Fault where
  /-- Raised by the memory primitives `memRead` and `memWrite` on an address at or above `MEM_SIZE`, which does not
  exist (00_scope.md R11 says that no rule calls them so). Safe: the machine stops. Log 29. -/
  | noSuchAddress (address : Nat)
  deriving DecidableEq, Repr

/-- Why an operation has no step. -/
inductive Refusal where
  /-- Raised by an arm of `exec` whose instruction has no meaning yet. Safe: the machine stops. No arm does. -/
  | notModelled (mnemonic : String)
  /-- Raised by the host operation `pressKey` on a code above 15 (60_exceptions.md R128: "refused by the model, meaning
  it has no step"). Safe. UNVERIFIED (the spec's decision D26): log 26. No cycle raises it. -/
  | keyCodeOutOfRange (code : Nat)
  deriving DecidableEq, Repr

/-- The state after reset, which is also the power-on state (R144, D23, log 24). Memory lists nothing: an unlisted
address reads as its reset content, the font or 0 (log 30). `dirty` and `key` are the spec's decision D15 (log 17);
`draws` is a DESIGN CHOICE (log 6). -/
def State.reset : State where
  mem := []
  v := Vector.replicate 16 0
  i := 0
  pc := 0x200
  stack := []
  dt := 0
  st := 0
  disp := Display.blank
  dirty := true
  mode := .running
  key := none
  draws := 0

end Sys2Proof.Machine
end

