-- ==== Sys2Proof/Machine/Ops.lean ====
section
/-!
DEFINITION. The named operations over memory, registers and mode that every meaning is written with: the memory
primitives of 00_scope.md R11 and 20_memory.md R43, R44, the halt primitive of R12, the register accessors, the skip and
the stack.
-/
namespace Sys2Proof.Machine

/-- What an operation answers. -/
abbrev Result (α : Type) := Host.Outcome α Fault Refusal

/-- Run `k` on the value of `r`; a fault or a refusal of `r` is the whole answer. -/
def andThen {α β : Type} (r : Result α) (k : α → Result β) : Result β :=
  match r with
  | .next a => k a
  | .fault f => .fault f
  | .refused f => .refused f

/-! ### The font region -/

/-- Whether an address is in `FONT_BASE .. FONT_BASE+79` (20_memory.md R44). The region lies below `PROG_BASE` (R7), so
testing that first changes nothing and lets Lean evaluate the test for every address of a program. -/
def inFont (a : Nat) : Bool :=
  decide (a < Config.progBase) && (decide (Config.fontBase ≤ a) && decide (a < Config.fontBase + Config.fontSize))

/-- What an address that the memory list does not hold reads as: the reset content (70_reset_and_hazards.md R141). -/
def resetByte (a : Nat) : Byte :=
  if inFont a then Config.fontData[a - Config.fontBase]?.getD 0 else 0

/-! ### Memory as a list of cells -/

/-- The byte at an address (total: callers check `MEM_SIZE`, see `memRead`). -/
def Memory.read (m : Memory) (a : Nat) : Byte :=
  match m with
  | [] => resetByte a
  | (b, v) :: rest => if a = b then v else Memory.read rest a

/-- List `v` at `a`, in address order, in place of any cell there. -/
def Memory.put (m : Memory) (a : Nat) (v : Byte) : Memory :=
  match m with
  | [] => [(a, v)]
  | (b, w) :: rest =>
    if a < b then (a, v) :: (b, w) :: rest
    else if a = b then (a, v) :: rest
    else (b, w) :: Memory.put rest a v

/-- Unlist `a`, so that it reads as its reset content. -/
def Memory.forget (m : Memory) (a : Nat) : Memory := m.filter fun c => c.1 != a

/-- Make `a` hold `v`, keeping the canonical form. -/
def Memory.write (m : Memory) (a : Nat) (v : Byte) : Memory :=
  if v = resetByte a then Memory.forget m a else Memory.put m a v

/-- Direct stores of consecutive bytes from `a` up, which `FONT_WRITE` does not concern (R141, R142). -/
def Memory.place (m : Memory) (a : Nat) : List Byte → Memory
  | [] => m
  | v :: rest => Memory.place (Memory.write m a v) (a + 1) rest

/-- The canonical form: addresses strictly rising and in range, and no cell that says what an unlisted address says. -/
def Memory.wf (m : Memory) : Bool :=
  decide (m.Pairwise (fun c d => c.1 < d.1) ∧ ∀ c ∈ m, c.1 < Config.memSize ∧ c.2 ≠ resetByte c.1)

/-! ### Setters, one for each element of the state -/

def State.setMem (s : State) (m : Memory) : State := { s with mem := m }
def State.setI (s : State) (w : Word) : State := { s with i := w }
def State.setPc (s : State) (w : Word) : State := { s with pc := w }
def State.setStack (s : State) (l : List Word) : State := { s with stack := l }
def State.setDt (s : State) (b : Byte) : State := { s with dt := b }
def State.setSt (s : State) (b : Byte) : State := { s with st := b }
def State.setDisp (s : State) (d : Display) : State := { s with disp := d }
def State.setDirty (s : State) (b : Bool) : State := { s with dirty := b }
def State.setMode (s : State) (m : Mode) : State := { s with mode := m }
def State.setKey (s : State) (k : Option KeyCode) : State := { s with key := k }
def State.setDraws (s : State) (n : Nat) : State := { s with draws := n }

/-! ### General registers (10_state.md R16: none is hardwired) -/

/-- `V[r]`. -/
def State.reg (s : State) (r : Reg) : Byte := s.v[r.val]'r.isLt

/-- `V[r] <- b`. -/
def State.setReg (s : State) (r : Reg) (b : Byte) : State := { s with v := s.v.set r.val b r.isLt }

/-- `V[15] <- b`. -/
def State.setVF (s : State) (b : Byte) : State := s.setReg regF b

/-- `V[r], V[r+1], ... <- bytes`, for the registers that exist. -/
def State.setRegsFrom (s : State) (r : Nat) : List Byte → State
  | [] => s
  | b :: rest => State.setRegsFrom (if h : r < 16 then s.setReg ⟨r, h⟩ b else s) (r + 1) rest

/-- `V[0] .. V[x]` in order. -/
def State.regsUpTo (s : State) (x : Reg) : List Byte := s.v.toList.take (x.val + 1)

/-! ### The memory primitives -/

/-- `MemRead(a, 1)` (R11). -/
def memRead (a : Nat) (s : State) : Result Byte :=
  if a < Config.memSize then .next (s.mem.read a) else .fault (.noSuchAddress a)

/-- Whether a store to `a` stores, under a `FONT_WRITE` policy (R44). -/
def storableUnder (policy : Config.FontWrite) (a : Nat) : Bool :=
  match policy with
  | .store => true
  | .discard => !inFont a

/-- Whether `MemWrite` to `a` stores on this machine. Below `PROG_BASE` this depends on the open parameters (log 3). -/
def storable (a : Nat) : Bool := !decide (a < Config.progBase) || storableUnder Config.fontWrite a

/-- `MemWrite(a, 1, v)` (R11, R44): a discarded store changes nothing and the instruction continues. -/
def memWrite (a : Nat) (v : Byte) (s : State) : Result State :=
  if a < Config.memSize then
    .next (if storable a then s.setMem (s.mem.write a v) else s)
  else .fault (.noSuchAddress a)

/-- `MemRead` of `count` consecutive bytes from `a` up. -/
def loadBytes (a : Nat) (count : Nat) (s : State) : Result (List Byte) :=
  match count with
  | 0 => .next []
  | n + 1 => andThen (memRead a s) fun b => andThen (loadBytes (a + 1) n s) fun rest => .next (b :: rest)

/-- `MemWrite` of consecutive bytes from `a` up, in order. -/
def storeBytes (a : Nat) (bytes : List Byte) (s : State) : Result State :=
  match bytes with
  | [] => .next s
  | b :: rest => andThen (memWrite a b s) fun t => storeBytes (a + 1) rest t

/-! ### Halting: the one exception of the core (R12, 60_exceptions.md R118) -/

/-- `raise Halt(reason)`: `MODE <- Halted(reason)`, nothing saved, `pc` not redirected, and the rule ends. There is no
return from a halt (R121): only the host's `reset` and `loadProgram` (Machine/HostOps.lean) leave it. -/
def raiseHalt (reason : HaltReason) (s : State) : Result State := .next (s.setMode (.halted reason))

/-! ### Control flow -/

/-- The fetch's unconditional advance, `pc <- pc0 + 2` (R69). -/
def State.advance (s : State) : State := s.setPc (s.pc + 2)

/-- The skip: `pc <- pc + 2` on top of the fetch advance, when the condition holds (00_scope.md R14). -/
def State.skipIf (s : State) (c : Bool) : State := if c then s.advance else s

/-- Whether `STACK` is full under a limit (R79). -/
def stackFull (limit : Option Nat) (s : State) : Bool :=
  match limit with
  | none => false
  | some l => decide (s.stack.length = l)

/-- `push(STACK, a)`: append (00_scope.md R10). -/
def State.push (s : State) (a : Word) : State := s.setStack (s.stack ++ [a])

/-- `pop(STACK)`: the most recently pushed address and the state without it; nothing on an empty stack. -/
def State.pop (s : State) : Option (Word × State) :=
  match s.stack.getLast? with
  | none => none
  | some a => some (a, s.setStack s.stack.dropLast)

/-! ### The display grid (10_state.md R27) -/

/-- `DISP[r][c]`; positions outside the grid hold no pixel and read as clear. -/
def Display.pixel (d : Display) (r c : Nat) : Bool :=
  if h : r < 32 ∧ c < 64 then (d[r]'h.1)[c]'h.2 else false

/-- `DISP[r][c] <- DISP[r][c] ^ 1`, for a position in the grid. -/
def Display.toggle (d : Display) (r c : Nat) : Display :=
  if h : r < 32 ∧ c < 64 then d.set r ((d[r]'h.1).set c (!(d[r]'h.1)[c]'h.2) h.2) h.1 else d

/-! ### Fetch -/

/-- The instruction word at `pc`, big-endian (20_memory.md R39). -/
def fetchWord (s : State) : Result Word :=
  andThen (memRead s.pc.toNat s) fun hi => andThen (memRead (s.pc.toNat + 1) s) fun lo => .next (wordOfBytes hi lo)

/-- Direct store of an instruction word where the fetch at `pc` reads it. -/
def State.placeWord (s : State) (w : Word) : State :=
  s.setMem (s.mem.place s.pc.toNat [highByte w, lowByte w])

end Sys2Proof.Machine
end

