-- ==== Sys2Proof/Machine/Cycle.lean ====
section
/-!
DEFINITION. One cycle (40_cycle_driver.md R67 to R70), over the fetch limit and the dispatcher it is given.
-/
namespace Sys2Proof.Machine

/-- The cycle: nothing unless Running (R67; UNVERIFIED, the spec's decision D12: log 14); the fetch check, which halts
before anything is fetched or advanced (R68); then fetch, advance and execute (R69, R70). -/
def cycleWith (limit : Nat) (run : Instr → State → Host.Outcome State Fault Refusal) (s : State) :
    Host.Outcome State Fault Refusal :=
  match s.mode with
  | .running =>
    if s.pc.toNat ≥ limit then raiseHalt .invalidProgramCounter s
    else andThen (fetchWord s) fun w => run (decodeWord w) s.advance
  | .blocked _ => .next s
  | .halted _ => .next s

/-- `s` with the word of a table row where the next fetch reads it, and Running, which the fetch needs (log 31). -/
def withTableWord (s : State) (nbits w : Nat) : State := (s.placeWord (tableWord nbits w)).setMode .running

end Sys2Proof.Machine
end

