-- ==== Sys2Proof/Machine/Flags.lean ====
section
/-!
DEFINITION. Every value an instruction writes to `VF` (10_state.md R18; 42_alu.md R91 to R95; 43_index_memory.md R99;
44_display.md R108). The core has no other flag.
-/
namespace Sys2Proof.Machine

/-- A flag as a register value: 1 or 0. -/
def flagByte (c : Bool) : Byte := if c then 1 else 0

/-- The carry of 8xy4: the exact sum exceeds 255. -/
def carryFlag (a b : Byte) : Byte := flagByte (decide (a.toNat + b.toNat > 255))

/-- The flag of 8xy5 and 8xy7: strictly greater, unsigned (R96). -/
def greaterFlag (a b : Byte) : Byte := flagByte (decide (a.toNat > b.toNat))

/-- The flag of 8xy6: the bit shifted out of bit 0. -/
def lowBitFlag (a : Byte) : Byte := a &&& 1

/-- The flag of 8xyE: the bit shifted out of bit 7. -/
def highBitFlag (a : Byte) : Byte := flagByte ((a &&& 0x80) != 0)

/-- Whether Fx1E sets `VF`: the exact sum is above `MEM_SIZE` (90_conflicts.md C2, C3). -/
def indexOverflows (sum : Nat) : Bool := decide (sum > Config.memSize)

/-- The collision flag of Dxyn (R108). -/
def collisionFlag (hit : Bool) : Byte := flagByte hit

end Sys2Proof.Machine
end

