-- ==== Sys2Proof/Machine/Operands.lean ====
section
/-!
DEFINITION. How each operand is formed (30_encoding.md R57): nothing is sign-extended, scaled or shifted.
-/
namespace Sys2Proof.Machine

/-- `zext_16(nnn)`. -/
def addrOperand (nnn : Addr) : Word := nnn.setWidth 16

/-- `zext_16(nnn) + zext_16(V[0])`, the target of `Bnnn` (R84). -/
def computedTarget (nnn : Addr) (s : State) : Word := nnn.setWidth 16 + (s.reg 0).setWidth 16

/-- A key code as a register value. -/
def keyByte (k : KeyCode) : Byte := BitVec.ofNat 8 k.val

/-- `KEY != none and KEY == V[x]` (R111). -/
def keyMatches (x : Reg) (s : State) : Bool :=
  match s.key with
  | none => false
  | some k => keyByte k == s.reg x

/-- `hundreds(v)`, `tens(v)`, `ones(v)` (R101). -/
def hundreds (v : Byte) : Byte := BitVec.ofNat 8 (v.toNat / 100)
def tens (v : Byte) : Byte := BitVec.ofNat 8 (v.toNat / 10 % 10)
def ones (v : Byte) : Byte := BitVec.ofNat 8 (v.toNat % 10)

/-- `FONT_BASE + 5 * V[x]`, not masked (R100). -/
def glyphAddress (x : Reg) (s : State) : Word :=
  BitVec.ofNat 16 (Config.fontBase + Config.glyphSize * (s.reg x).toNat)

/-- `I + V[x]` as an exact natural number (R99). -/
def indexSum (x : Reg) (s : State) : Nat := s.i.toNat + (s.reg x).toNat

/-- The start column `V[x] mod W` of a sprite (R106). -/
def spriteColumn (x : Reg) (s : State) : Nat := (s.reg x).toNat % Config.width

/-- The start row `V[y] mod H` of a sprite (R106). -/
def spriteRow (y : Reg) (s : State) : Nat := (s.reg y).toNat % Config.height

/-- `rows = min(n, H - cy)`: the sprite rows that fall inside the buffer (R107). -/
def spriteRows (y : Reg) (n : RowCount) (s : State) : Nat := min n.val (Config.height - spriteRow y s)

end Sys2Proof.Machine
end

