-- ==== Sys2Proof/Machine/Alu.lean ====
section
/-!
DEFINITION. Register loads, arithmetic, logic, shifts and the random draw (42_alu.md R85 to R97). Statements run in the
written order and a later one reads what the earlier ones wrote (00_scope.md R13). UNVERIFIED (the spec's decision D4):
log 8; it shows only when `x = F` or `y = F`.
-/
namespace Sys2Proof.Machine

/-- `6xkk` LD Vx, kk (R85). -/
def execLdImm (x : Reg) (kk : Byte) (s : State) : Host.Outcome State Fault Refusal :=
  .next (s.setReg x kk)

/-- `7xkk` ADD Vx, kk (R86): `VF` is not a carry here. -/
def execAddImm (x : Reg) (kk : Byte) (s : State) : Host.Outcome State Fault Refusal :=
  .next (s.setReg x (s.reg x + kk))

/-- `8xy0` LD Vx, Vy (R87). -/
def execLdReg (x y : Reg) (s : State) : Host.Outcome State Fault Refusal :=
  .next (s.setReg x (s.reg y))

/-- `8xy1` OR Vx, Vy (R88). -/
def execOrReg (x y : Reg) (s : State) : Host.Outcome State Fault Refusal :=
  .next (s.setReg x (s.reg x ||| s.reg y))

/-- `8xy2` AND Vx, Vy (R89). -/
def execAndReg (x y : Reg) (s : State) : Host.Outcome State Fault Refusal :=
  .next (s.setReg x (s.reg x &&& s.reg y))

/-- `8xy3` XOR Vx, Vy (R90). -/
def execXorReg (x y : Reg) (s : State) : Host.Outcome State Fault Refusal :=
  .next (s.setReg x (s.reg x ^^^ s.reg y))

/-- `8xy4` ADD Vx, Vy (R91): both operands are read before any write. -/
def execAddReg (x y : Reg) (s : State) : Host.Outcome State Fault Refusal :=
  let sum := s.reg x + s.reg y
  let s1 := s.setVF (carryFlag (s.reg x) (s.reg y))
  .next (s1.setReg x sum)

/-- `8xy5` SUB Vx, Vy (R92): the operands are read again after the `VF` write. -/
def execSub (x y : Reg) (s : State) : Host.Outcome State Fault Refusal :=
  let s1 := s.setVF (greaterFlag (s.reg x) (s.reg y))
  .next (s1.setReg x (s1.reg x - s1.reg y))

/-- `8xy6` SHR Vx (R93): `V[y]` is not read. -/
def execShr (x _y : Reg) (s : State) : Host.Outcome State Fault Refusal :=
  let s1 := s.setVF (lowBitFlag (s.reg x))
  .next (s1.setReg x (s1.reg x >>> 1))

/-- `8xy7` SUBN Vx, Vy (R94). -/
def execSubn (x y : Reg) (s : State) : Host.Outcome State Fault Refusal :=
  let s1 := s.setVF (greaterFlag (s.reg y) (s.reg x))
  .next (s1.setReg x (s1.reg y - s1.reg x))

/-- `8xyE` SHL Vx (R95): `V[y]` is not read. -/
def execShl (x _y : Reg) (s : State) : Host.Outcome State Fault Refusal :=
  let s1 := s.setVF (highBitFlag (s.reg x))
  .next (s1.setReg x (s1.reg x <<< 1))

/-- `Cxkk` RND Vx, kk (R97): the random byte is the free value of this draw, and the draw is used up (log 6). -/
def execRnd (x : Reg) (kk : Byte) (s : State) : Host.Outcome State Fault Refusal :=
  .next ((s.setReg x (Config.randomByte s.draws &&& kk)).setDraws (s.draws + 1))

end Sys2Proof.Machine
end

