-- ==== Sys2Proof/Machine/Draw.lean ====
section
/-!
DEFINITION. The display instructions (44_display.md R105 to R110).
-/
namespace Sys2Proof.Machine

/-- `00E0` CLS (R105): every pixel 0, and the dirty mark is set even if nothing changed. -/
def execCls (s : State) : Host.Outcome State Fault Refusal :=
  .next ((s.setDisp Display.blank).setDirty true)

/-- A draw in progress: the grid so far, and whether a set pixel has been turned off. -/
structure Canvas where
  disp : Display
  hit  : Bool
  deriving DecidableEq, Repr

/-- Bit `7 - j` of a sprite byte: its pixel at column offset `j` (R106). -/
def spriteBit (b : Byte) (j : Nat) : Bool := b.getLsbD (7 - j)

/-- One pixel of a sprite row at `(r, cx + j)`: nothing past the right edge, nothing for a 0 bit, else note a
collision and toggle (R107). -/
def drawBit (r cx : Nat) (b : Byte) (p : Canvas) (j : Nat) : Canvas :=
  if cx + j ≥ Config.width then p
  else if spriteBit b j then
    { disp := p.disp.toggle r (cx + j), hit := p.hit || p.disp.pixel r (cx + j) }
  else p

/-- One sprite row, most significant bit first. -/
def drawRow (r cx : Nat) (b : Byte) (p : Canvas) : Canvas :=
  [0, 1, 2, 3, 4, 5, 6, 7].foldl (drawBit r cx b) p

/-- The sprite rows from row `r` of the grid down. -/
def drawRows (r cx : Nat) (bytes : List Byte) (p : Canvas) : Canvas :=
  match bytes with
  | [] => p
  | b :: rest => drawRows (r + 1) cx rest (drawRow r cx b p)

/-- `Dxyn` DRW Vx, Vy, n (R107). The coordinates are read before `VF` is written; clipped rows are neither read nor
checked. The halt is UNVERIFIED (the spec's decision D6): log 10; the dirty mark is UNVERIFIED (D16): log 18. The rows'
bytes are read before the first pixel changes, which nothing can observe, since the grid is not in memory (DEDUCED,
log 36). -/
def execDrw (x y : Reg) (n : RowCount) (s : State) : Host.Outcome State Fault Refusal :=
  let rows := spriteRows y n s
  if rows > 0 ∧ s.i.toNat + rows - 1 ≥ Config.memSize then raiseHalt .invalidMemoryAccess s
  else
    andThen (loadBytes s.i.toNat rows s) fun bytes =>
      let p := drawRows (spriteRow y s) (spriteColumn x s) bytes { disp := s.disp, hit := false }
      .next (((s.setDisp p.disp).setVF (collisionFlag p.hit)).setDirty true)

end Sys2Proof.Machine
end

