-- ==== Sys2Proof/Machine/Flow.lean ====
section
/-!
DEFINITION. Control flow (41_flow.md R77 to R84) and the UNKNOWN no-op (40_cycle_driver.md R72). Every meaning runs
after the fetch advance: on entry `pc = pc0 + 2` (R69, log 32).
-/
namespace Sys2Proof.Machine

/-- `00EE` RET (R77): halt on an empty stack, else `pc <- pop(STACK)`. -/
def execRet (s : State) : Host.Outcome State Fault Refusal :=
  match s.pop with
  | none => raiseHalt .stackUnderflow s
  | some (a, t) => .next (t.setPc a)

/-- `1nnn` JP nnn (R78). The target is not checked here (R20). -/
def execJp (nnn : Addr) (s : State) : Host.Outcome State Fault Refusal :=
  .next (s.setPc (addrOperand nnn))

/-- CALL under a `STACK_LIMIT` (R79): a full bounded stack halts; else push the return address and jump. -/
def callWith (limit : Option Nat) (nnn : Addr) (s : State) : Host.Outcome State Fault Refusal :=
  if stackFull limit s then raiseHalt .stackOverflow s
  else .next ((s.push s.pc).setPc (addrOperand nnn))

/-- `2nnn` CALL nnn (R79). -/
def execCall (nnn : Addr) (s : State) : Host.Outcome State Fault Refusal :=
  callWith Config.stackLimit nnn s

/-- `3xkk` SE Vx, kk (R80). -/
def execSeImm (x : Reg) (kk : Byte) (s : State) : Host.Outcome State Fault Refusal :=
  .next (s.skipIf (s.reg x == kk))

/-- `4xkk` SNE Vx, kk (R81). -/
def execSneImm (x : Reg) (kk : Byte) (s : State) : Host.Outcome State Fault Refusal :=
  .next (s.skipIf (s.reg x != kk))

/-- `5xy0` SE Vx, Vy (R82). -/
def execSeReg (x y : Reg) (s : State) : Host.Outcome State Fault Refusal :=
  .next (s.skipIf (s.reg x == s.reg y))

/-- `9xy0` SNE Vx, Vy (R83). -/
def execSneReg (x y : Reg) (s : State) : Host.Outcome State Fault Refusal :=
  .next (s.skipIf (s.reg x != s.reg y))

/-- `Bnnn` JP V0, nnn (R84): always `V[0]`, not masked to 12 bits. -/
def execJpV0 (nnn : Addr) (s : State) : Host.Outcome State Fault Refusal :=
  .next (s.setPc (computedTarget nnn s))

/-- UNKNOWN (R72): changes no state; the report is an output of the cycle (`cycleOutput`). -/
def execUnknown (_w : Word) (s : State) : Host.Outcome State Fault Refusal := .next s

end Sys2Proof.Machine
end

