-- ==== Sys2Proof/Machine/Index.lean ====
section
/-!
DEFINITION. The address register and the memory transfers (43_index_memory.md R98 to R104). Each transfer checks its
highest address, as an exact natural number, before its first access (20_memory.md R43). UNVERIFIED (the spec's decision
D9): log 12.
-/
namespace Sys2Proof.Machine

/-- `Annn` LD I, nnn (R98). -/
def execLdI (nnn : Addr) (s : State) : Host.Outcome State Fault Refusal :=
  .next (s.setI (addrOperand nnn))

/-- `Fx1E` ADD I, Vx (R99): `VF` is set on the exact sum and is never cleared here. The reduction modulo 2^16 is
UNVERIFIED (the spec's decision D7): log 11. -/
def execAddIVx (x : Reg) (s : State) : Host.Outcome State Fault Refusal :=
  let sum := indexSum x s
  let s1 := s.setI (BitVec.ofNat 16 sum)
  .next (if indexOverflows sum then s1.setVF (flagByte true) else s1)

/-- `Fx29` LD F, Vx (R100). -/
def execLdFVx (x : Reg) (s : State) : Host.Outcome State Fault Refusal :=
  .next (s.setI (glyphAddress x s))

/-- `Fx33` LD B, Vx (R102): the three decimal digits at `I`, `I+1`, `I+2`. -/
def execLdBVx (x : Reg) (s : State) : Host.Outcome State Fault Refusal :=
  if s.i.toNat + 2 ≥ Config.memSize then raiseHalt .invalidMemoryAccess s
  else storeBytes s.i.toNat [hundreds (s.reg x), tens (s.reg x), ones (s.reg x)] s

/-- `Fx55` LD [I], Vx (R103): `I` is unchanged. -/
def execLdMemVx (x : Reg) (s : State) : Host.Outcome State Fault Refusal :=
  if s.i.toNat + x.val ≥ Config.memSize then raiseHalt .invalidMemoryAccess s
  else storeBytes s.i.toNat (s.regsUpTo x) s

/-- `Fx65` LD Vx, [I] (R104): `I` is unchanged. -/
def execLdVxMem (x : Reg) (s : State) : Host.Outcome State Fault Refusal :=
  if s.i.toNat + x.val ≥ Config.memSize then raiseHalt .invalidMemoryAccess s
  else andThen (loadBytes s.i.toNat (x.val + 1) s) fun bytes => .next (s.setRegsFrom 0 bytes)

end Sys2Proof.Machine
end

