-- ==== Sys2Proof/Machine/Keys.lean ====
section
/-!
DEFINITION. The keypad and timer instructions (45_keys_timers.md R111 to R116).
-/
namespace Sys2Proof.Machine

/-- `Ex9E` SKP Vx (R111): the key is not consumed. -/
def execSkp (x : Reg) (s : State) : Host.Outcome State Fault Refusal :=
  .next (s.skipIf (keyMatches x s))

/-- `ExA1` SKNP Vx (R112). -/
def execSknp (x : Reg) (s : State) : Host.Outcome State Fault Refusal :=
  .next (s.skipIf (!keyMatches x s))

/-- `Fx07` LD Vx, DT (R113). -/
def execLdVxDt (x : Reg) (s : State) : Host.Outcome State Fault Refusal :=
  .next (s.setReg x s.dt)

/-- `Fx0A` LD Vx, K (R114): take the latched key, or wait; `pc` is not rolled back. -/
def execLdVxK (x : Reg) (s : State) : Host.Outcome State Fault Refusal :=
  match s.key with
  | some k => .next ((s.setReg x (keyByte k)).setKey none)
  | none => .next (s.setMode (.blocked x))

/-- `Fx15` LD DT, Vx (R115). -/
def execLdDtVx (x : Reg) (s : State) : Host.Outcome State Fault Refusal :=
  .next (s.setDt (s.reg x))

/-- `Fx18` LD ST, Vx (R116). -/
def execLdStVx (x : Reg) (s : State) : Host.Outcome State Fault Refusal :=
  .next (s.setSt (s.reg x))

end Sys2Proof.Machine
end

