-- ==== Sys2Proof/Machine/Step.lean ====
section
/-!
DEFINITION. The step of the machine is one `cycle()` (40_cycle_driver.md), under the default fetch limit.
-/
namespace Sys2Proof.Machine

/-- One `cycle()`. The host's other operations are in Machine/HostOps.lean (log 22). -/
def step (s : State) : Host.Outcome State Fault Refusal := cycleWith Config.pcFetchLimit exec s

/-- `s` with the instruction of a table row's bits where `step` fetches its next instruction (log 31). -/
def State.withFetchWord (s : State) (nbits w : Nat) : State := withTableWord s nbits w

end Sys2Proof.Machine
end

