-- ==== Sys2Proof/Machine/HostOps.lean ====
section
/-!
DEFINITION. The host's operations (60_exceptions.md R127 to R133; 70_reset_and_hazards.md R141 to R143), each atomic and
each between two cycles (R132). `State.apply` gives the effect of one, `State.applyAll` of any finite sequence.
-/
namespace Sys2Proof.Machine

/-- One operation the host may invoke. -/
inductive HostOp where
  /-- `cycle()` -/
  | cycle
  /-- `tick()` -/
  | tick
  /-- `pressKey(k)` -/
  | pressKey (code : Nat)
  /-- `releaseKey()` -/
  | releaseKey
  /-- `halt(s)` -/
  | halt (message : String)
  /-- `clearDirty()` -/
  | clearDirty
  /-- `reset()` -/
  | reset
  /-- `loadProgram(bytes)` -/
  | loadProgram (bytes : List Byte)
  /-- A read of the observable fields (R131) -/
  | read
  deriving DecidableEq, Repr

/-- A timer's decrement: it stops at 0 (R127). -/
def countDown (b : Byte) : Byte := if b.toNat > 0 then b - 1 else b

/-- `tick()` (R127): frozen while Blocked, and while Halted (UNVERIFIED, the spec's decision D17: log 19). -/
def tick (s : State) : State :=
  match s.mode with
  | .running => (s.setDt (countDown s.dt)).setSt (countDown s.st)
  | .blocked _ => s
  | .halted _ => s

/-- A key press with a code in range (R128, R129): latched while Running; while Blocked it resolves the wait and is
consumed (UNVERIFIED, the spec's decision D14: log 16); nothing while Halted (UNVERIFIED, D27: log 27). -/
def pressCode (k : KeyCode) (s : State) : State :=
  match s.mode with
  | .running => s.setKey (some k)
  | .blocked t => ((s.setReg t (keyByte k)).setMode .running).setKey none
  | .halted _ => s

/-- `pressKey(k)`: a code above 15 is refused, whatever the mode (R128; UNVERIFIED, the spec's decision D26: log 26). -/
def pressKey (code : Nat) (s : State) : Host.Outcome State Fault Refusal :=
  if h : code < 16 then .next (pressCode ⟨code, h⟩ s) else .refused (.keyCodeOutOfRange code)

/-- `releaseKey()` (R130). -/
def releaseKey (s : State) : State :=
  match s.mode with
  | .running => s.setKey none
  | .blocked _ => s.setKey none
  | .halted _ => s

/-- `halt(s)` (R133): the first reason is kept (R122; UNVERIFIED, the spec's decision D13: log 15). -/
def externalHalt (message : String) (s : State) : State :=
  match s.mode with
  | .running => s.setMode (.halted (.external message))
  | .blocked _ => s.setMode (.halted (.external message))
  | .halted _ => s

/-- `clearDirty()` (R131). -/
def clearDirty (s : State) : State := s.setDirty false

/-- `reset()` (R141): every element of R15 at its reset value. The draw number goes on, so that draws after a reset stay
unrelated to those before it (log 34). -/
def resetCore (s : State) : State := State.reset.setDraws s.draws

/-- The longest program image: `MEM_SIZE - PROG_BASE` = 3584 bytes. -/
abbrev programRoom : Nat := Config.memSize - Config.progBase

/-- `loadProgram(bytes)` (R142, R143): reset, then the image by direct store; an image too long halts, with no byte
copied (UNVERIFIED, the spec's decision D18: log 20). -/
def loadProgram (bytes : List Byte) (s : State) : State :=
  let s1 := resetCore s
  if bytes.length ≤ programRoom then s1.setMem (s1.mem.place Config.progBase bytes)
  else s1.setMode (.halted .programTooLarge)

/-- The effect of one host operation. -/
def State.apply (op : HostOp) (s : State) : Host.Outcome State Fault Refusal :=
  match op with
  | .cycle => step s
  | .tick => .next (tick s)
  | .pressKey code => pressKey code s
  | .releaseKey => .next (releaseKey s)
  | .halt message => .next (externalHalt message s)
  | .clearDirty => .next (clearDirty s)
  | .reset => .next (resetCore s)
  | .loadProgram bytes => .next (loadProgram bytes s)
  | .read => .next s

/-- The effect of a sequence of host operations, in order (R132): a fault or a refusal ends it. -/
def State.applyAll (ops : List HostOp) (s : State) : Host.Outcome State Fault Refusal :=
  match ops with
  | [] => .next s
  | op :: rest => andThen (State.apply op s) (State.applyAll rest)

/-! ### What the host reads (10_state.md R30; R131) -/

/-- `halted`. -/
def State.isHalted (s : State) : Bool :=
  match s.mode with
  | .running => false
  | .blocked _ => false
  | .halted _ => true

/-- `haltMessage`. -/
def State.haltMessage (s : State) : Option HaltReason :=
  match s.mode with
  | .running => none
  | .blocked _ => none
  | .halted reason => some reason

/-- `blockedOnKey`. -/
def State.blockedOnKey (s : State) : Bool :=
  match s.mode with
  | .running => false
  | .blocked _ => true
  | .halted _ => false

/-- `waitTarget`. -/
def State.waitTarget (s : State) : Option Reg :=
  match s.mode with
  | .running => none
  | .blocked t => some t
  | .halted _ => none

/-- The fields a host read sees, and no others. -/
structure HostView where
  disp : Display
  dirty : Bool
  halted : Bool
  haltMessage : Option HaltReason
  blockedOnKey : Bool
  waitTarget : Option Reg
  dt : Byte
  st : Byte
  pc : Word
  deriving DecidableEq, Repr

/-- What the host sees between cycles. -/
def State.view (s : State) : HostView where
  disp := s.disp
  dirty := s.dirty
  halted := s.isHalted
  haltMessage := s.haltMessage
  blockedOnKey := s.blockedOnKey
  waitTarget := s.waitTarget
  dt := s.dt
  st := s.st
  pc := s.pc

end Sys2Proof.Machine
end

