-- ==== Sys2Proof/Machine/Output.lean ====
section
/-!
DEFINITION. What a cycle returns to the host: its result (40_cycle_driver.md R74; UNVERIFIED, the spec's decision D24:
log 25) and, in trace mode, the listing (R76). Outputs are functions of the state; they are not state.
-/
namespace Sys2Proof.Machine

/-- The result of a cycle (R74). -/
inductive CycleResult where
  /-- The machine was not Running. -/
  | noStep
  /-- A recognised instruction ran and the machine still runs. -/
  | executed (pc0 w : Word)
  /-- An UNKNOWN word was passed over and is reported. -/
  | unknown (pc0 w : Word)
  /-- `Fx0A` began to wait. -/
  | waitEntered (pc0 w : Word)
  /-- The cycle halted; there is no word when the fetch check did it. -/
  | haltedAt (pc0 : Word) (w : Option Word) (reason : HaltReason)
  deriving DecidableEq, Repr

/-- Whether decoding gave UNKNOWN. -/
def isUnknown (i : Instr) : Bool :=
  match i with
  | .unknown _ => true
  | .cls | .ret | .jp _ | .call _ | .seImm _ _ | .sneImm _ _ | .seReg _ _ | .ldImm _ _ | .addImm _ _ | .ldReg _ _
  | .orReg _ _ | .andReg _ _ | .xorReg _ _ | .addReg _ _ | .sub _ _ | .shr _ _ | .subn _ _ | .shl _ _ | .sneReg _ _
  | .ldI _ | .jpV0 _ | .rnd _ _ | .drw _ _ _ | .skp _ | .sknp _ | .ldVxDt _ | .ldVxK _ | .ldDtVx _ | .ldStVx _
  | .addIVx _ | .ldFVx _ | .ldBVx _ | .ldMemVx _ | .ldVxMem _ => false

/-- The result of a cycle that fetched `w` at `pc0` and ended in mode `m`. -/
def resultOf (pc0 w : Word) (m : Mode) : CycleResult :=
  match m with
  | .running => if isUnknown (decodeWord w) then .unknown pc0 w else .executed pc0 w
  | .blocked _ => .waitEntered pc0 w
  | .halted reason => .haltedAt pc0 (some w) reason

/-- The result of the cycle that starts in `s`. -/
def cycleResult (s : State) : Result CycleResult :=
  match s.mode with
  | .running =>
    if s.pc.toNat ≥ Config.pcFetchLimit then .next (.haltedAt s.pc none .invalidProgramCounter)
    else andThen (fetchWord s) fun w => andThen (step s) fun t => .next (resultOf s.pc w t.mode)
  | .blocked _ => .next .noStep
  | .halted _ => .next .noStep

/-! ### The trace listing (R76; UNVERIFIED, the spec's decision D25: log 7) -/

/-- One entry: an address, the instruction there, and its spelling. -/
structure TraceEntry where
  address : Nat
  instr : Instr
  text : String
  deriving DecidableEq, Repr

/-- The word at an address, big-endian. -/
def wordAt (m : Memory) (a : Nat) : Word := wordOfBytes (m.read a) (m.read (a + 1))

/-- The scanned addresses `0x200, 0x202, ..., 0xFFE`. -/
def traceAddresses : List Nat :=
  (List.range ((Config.memSize - Config.progBase) / 2)).map fun k => Config.progBase + 2 * k

/-- The entry at an address, if its word is not 0. -/
def traceEntry (m : Memory) (a : Nat) : Option TraceEntry :=
  if wordAt m a = 0 then none
  else some { address := a, instr := decodeWord (wordAt m a), text := Config.traceFormat (decodeWord (wordAt m a)) }

/-- The listing, computed from memory alone. -/
def traceListing (m : Memory) : List TraceEntry := traceAddresses.filterMap (traceEntry m)

/-- Everything a cycle returns. -/
structure CycleOutput where
  result : CycleResult
  /-- Present exactly when the host configured `TRACE`. -/
  listing : Option (List TraceEntry)
  deriving DecidableEq, Repr

/-- The memory that the listing shows, before or after the cycle's instruction. -/
def traceMemory (snapshot : Config.TraceSnapshot) (s t : State) : Memory :=
  match snapshot with
  | .before => s.mem
  | .after => t.mem

/-- The output of the cycle that starts in `s`, under the host's `TRACE` flag. -/
def cycleOutput (trace : Bool) (s : State) : Result CycleOutput :=
  andThen (cycleResult s) fun r => andThen (step s) fun t =>
    .next { result := r, listing := if trace then some (traceListing (traceMemory Config.traceSnapshot s t)) else none }

end Sys2Proof.Machine
end

