-- ==== Sys2Proof/Safety.lean ====
section
/-!
DEFINITION. The terms claims are stated in: the elements of the state and what it is for one to be unchanged, which
element and which register each instruction may write (10_state.md R17, R18, R23, R25 to R28, R31; 20_memory.md R42),
the invariant every step keeps, the mode transitions (40_cycle_driver.md R75), and the pixels a sprite covers
(44_display.md R106).
-/
namespace Sys2Proof

/-- The elements of 10_state.md R15, and the model's own `draws`. -/
inductive Element where
  | mem | regs | i | pc | stack | dt | st | disp | dirty | mode | key | draws
  deriving DecidableEq, Repr

/-- The elements an instruction may write, beyond the fetch advance: by completing, or `mode` by halting or waiting. -/
def Instr.writes : Instr → List Element
  | .cls => [.disp, .dirty]
  | .ret => [.pc, .stack, .mode]
  | .jp _ => [.pc]
  | .call _ => [.pc, .stack]
  | .seImm _ _ => [.pc]
  | .sneImm _ _ => [.pc]
  | .seReg _ _ => [.pc]
  | .ldImm _ _ => [.regs]
  | .addImm _ _ => [.regs]
  | .ldReg _ _ => [.regs]
  | .orReg _ _ => [.regs]
  | .andReg _ _ => [.regs]
  | .xorReg _ _ => [.regs]
  | .addReg _ _ => [.regs]
  | .sub _ _ => [.regs]
  | .shr _ _ => [.regs]
  | .subn _ _ => [.regs]
  | .shl _ _ => [.regs]
  | .sneReg _ _ => [.pc]
  | .ldI _ => [.i]
  | .jpV0 _ => [.pc]
  | .rnd _ _ => [.regs, .draws]
  | .drw _ _ _ => [.regs, .disp, .dirty, .mode]
  | .skp _ => [.pc]
  | .sknp _ => [.pc]
  | .ldVxDt _ => [.regs]
  | .ldVxK _ => [.regs, .key, .mode]
  | .ldDtVx _ => [.dt]
  | .ldStVx _ => [.st]
  | .addIVx _ => [.i, .regs]
  | .ldFVx _ => [.i]
  | .ldBVx _ => [.mem, .mode]
  | .ldMemVx _ => [.mem, .mode]
  | .ldVxMem _ => [.regs, .mode]
  | .unknown _ => []

/-- The general registers an instruction may write: the last column of the table of 10_state.md R17. -/
def Instr.regsWritten : Instr → List Reg
  | .ldImm x _ => [x]
  | .addImm x _ => [x]
  | .ldReg x _ => [x]
  | .orReg x _ => [x]
  | .andReg x _ => [x]
  | .xorReg x _ => [x]
  | .addReg x _ => [regF, x]
  | .sub x _ => [regF, x]
  | .shr x _ => [regF, x]
  | .subn x _ => [regF, x]
  | .shl x _ => [regF, x]
  | .rnd x _ => [x]
  | .drw _ _ _ => [regF]
  | .ldVxDt x => [x]
  | .ldVxK x => [x]
  | .addIVx _ => [regF]
  | .ldVxMem x => (List.finRange 16).filter fun r => decide (r ≤ x)
  | .cls | .ret | .jp _ | .call _ | .seImm _ _ | .sneImm _ _ | .seReg _ _ | .sneReg _ _ | .ldI _ | .jpV0 _ | .skp _
  | .sknp _ | .ldDtVx _ | .ldStVx _ | .ldFVx _ | .ldBVx _ | .ldMemVx _ | .unknown _ => []

/-- The three instructions that read `KEY` (10_state.md R31). -/
def Instr.readsKey : Instr → Bool
  | .skp _ => true
  | .sknp _ => true
  | .ldVxK _ => true
  | .cls | .ret | .jp _ | .call _ | .seImm _ _ | .sneImm _ _ | .seReg _ _ | .ldImm _ _ | .addImm _ _ | .ldReg _ _
  | .orReg _ _ | .andReg _ _ | .xorReg _ _ | .addReg _ _ | .sub _ _ | .shr _ _ | .subn _ _ | .shl _ _ | .sneReg _ _
  | .ldI _ | .jpV0 _ | .rnd _ _ | .drw _ _ _ | .ldVxDt _ | .ldDtVx _ | .ldStVx _ | .addIVx _ | .ldFVx _ | .ldBVx _
  | .ldMemVx _ | .ldVxMem _ | .unknown _ => false

namespace Machine

/-- Element `e` is the same in `t` as in `s`: for memory, every byte reads as before; for the display, every pixel. -/
def State.agrees (e : Element) (s t : State) : Prop :=
  match e with
  | .mem => ∀ a : Nat, t.mem.read a = s.mem.read a
  | .regs => ∀ r : Reg, t.reg r = s.reg r
  | .i => t.i = s.i
  | .pc => t.pc = s.pc
  | .stack => t.stack = s.stack
  | .dt => t.dt = s.dt
  | .st => t.st = s.st
  | .disp => ∀ r c : Nat, t.disp.pixel r c = s.disp.pixel r c
  | .dirty => t.dirty = s.dirty
  | .mode => t.mode = s.mode
  | .key => t.key = s.key
  | .draws => t.draws = s.draws

/-- Every element is unchanged from `s` to `t` except those listed. -/
def UnchangedExcept (es : List Element) (s t : State) : Prop := ∀ e : Element, e ∉ es → State.agrees e s t

/-- Every register is unchanged from `s` to `t` except those listed. -/
def RegsUnchangedExcept (rs : List Reg) (s t : State) : Prop := ∀ r : Reg, r ∉ rs → t.reg r = s.reg r

/-- The instruction word a fetch at `pc` reads. -/
def State.wordAtPc (s : State) : Word := wordAt s.mem s.pc.toNat

/-- What every operation keeps: memory in canonical form; `pc` at most 0x10FE (10_state.md R22); every return address at
most 4095 (41_flow.md R77); no key latched while the machine waits for one (60_exceptions.md R129). -/
def State.Inv (s : State) : Prop :=
  s.mem.wf = true ∧ s.pc.toNat ≤ 0x10FE ∧ (∀ a ∈ s.stack, a.toNat ≤ 4095) ∧ (∀ t, s.mode = .blocked t → s.key = none)

/-- Whether a draw halts: some row inside the buffer has its byte at or above `MEM_SIZE` (44_display.md R107). -/
def drawHalts (y : Reg) (n : RowCount) (s : State) : Bool :=
  decide (0 < spriteRows y n s ∧ Config.memSize ≤ s.i.toNat + spriteRows y n s - 1)

/-- Whether an instruction that accesses memory would touch an address at or above `MEM_SIZE` (20_memory.md R43). -/
def boundsFail (instr : Instr) (s : State) : Bool :=
  match instr with
  | .drw _ y n => drawHalts y n s
  | .ldBVx _ => decide (Config.memSize ≤ s.i.toNat + 2)
  | .ldMemVx x => decide (Config.memSize ≤ s.i.toNat + x.val)
  | .ldVxMem x => decide (Config.memSize ≤ s.i.toNat + x.val)
  | .cls | .ret | .jp _ | .call _ | .seImm _ _ | .sneImm _ _ | .seReg _ _ | .ldImm _ _ | .addImm _ _ | .ldReg _ _
  | .orReg _ _ | .andReg _ _ | .xorReg _ _ | .addReg _ _ | .sub _ _ | .shr _ _ | .subn _ _ | .shl _ _ | .sneReg _ _
  | .ldI _ | .jpV0 _ | .rnd _ _ | .skp _ | .sknp _ | .ldVxDt _ | .ldVxK _ | .ldDtVx _ | .ldStVx _ | .addIVx _
  | .ldFVx _ | .unknown _ => false

/-- The rows of the table of mode transitions (40_cycle_driver.md R75), under the unbounded stack: the mode that `op`
may move a machine in state `s` to. -/
inductive ModeMove (s : State) : HostOp → Mode → Prop where
  | waits (x : Reg) (running : s.mode = .running) (fetches : s.pc.toNat < Config.pcFetchLimit)
      (word : decodeWord s.wordAtPc = .ldVxK x) (noKey : s.key = none) : ModeMove s .cycle (.blocked x)
  | wakes (k : Nat) (target : Reg) (blocked : s.mode = .blocked target) (code : k < 16) :
      ModeMove s (.pressKey k) .running
  | badPc (running : s.mode = .running) (out : Config.pcFetchLimit ≤ s.pc.toNat) :
      ModeMove s .cycle (.halted .invalidProgramCounter)
  | underflows (running : s.mode = .running) (fetches : s.pc.toNat < Config.pcFetchLimit)
      (word : decodeWord s.wordAtPc = .ret) (empty : s.stack = []) : ModeMove s .cycle (.halted .stackUnderflow)
  | outOfBounds (running : s.mode = .running) (fetches : s.pc.toNat < Config.pcFetchLimit)
      (word : boundsFail (decodeWord s.wordAtPc) s = true) : ModeMove s .cycle (.halted .invalidMemoryAccess)
  | requested (message : String) (live : s.isHalted = false) :
      ModeMove s (.halt message) (.halted (.external message))
  | resets : ModeMove s .reset .running
  | loads (bytes : List Byte) (fits : bytes.length ≤ 3584) : ModeMove s (.loadProgram bytes) .running
  | tooLarge (bytes : List Byte) (long : 3584 < bytes.length) :
      ModeMove s (.loadProgram bytes) (.halted .programTooLarge)

/-- Whether the sprite of `Dxyn` in state `s` has a 1 bit at row `r`, column `c` of the grid (44_display.md R106): the
sprite's top-left pixel is at the wrapped start coordinates, bit 7 is leftmost, and nothing wraps at the edges. -/
def spriteCovers (x y : Reg) (n : RowCount) (s : State) (r c : Nat) : Bool :=
  decide (spriteRow y s ≤ r ∧ r < spriteRow y s + n.val ∧ r < Config.height) &&
  decide (spriteColumn x s ≤ c ∧ c < spriteColumn x s + 8 ∧ c < Config.width) &&
  (s.mem.read (s.i.toNat + (r - spriteRow y s))).getLsbD (7 - (c - spriteColumn x s))

end Machine
end Sys2Proof
end

