-- ==== Sys2Proof/Certificates/Slice0/Obligations.lean ====
section
/-!
DEFINITION. The statements for the provers, from the numbered rules of spec/. A result statement gives the next state an
instruction answers, its frame (`UnchangedExcept`, `RegsUnchangedExcept`: everything not named is unchanged), and, where
its rule gives the encoding, the word it is decoded from. `exec` runs after the fetch advance, so `s.pc` is `pc0 + 2`
there. A clause that rests on a decision of the spec's own (92_eei_decisions.md) says so in its docstring, with its log
entry.
-/
open Sys2Proof Sys2Proof.Machine

/-! ### Encoding and decoding -/

/-- 30_encoding.md sections 1 to 3: every well-formed instruction decodes from its own word, and from its own two bytes
at the front of any stream. That an UNKNOWN keeps its word is the model's reading (DEDUCED, log 39); that 5xyN and 9xyN are UNKNOWN
is the spec's decision D5 (log 9). -/
def Obligations.DecodeEncodeRoundTrip : Prop :=
  ∀ (instr : Instr) (rest : List Byte), instr.wellFormed = true →
    decodeWord (encode instr) = instr ∧ decode (encodeBytes instr ++ rest) = .ok (instr, rest)

/-- No bit of a word is lost by decoding it, so different words are different instructions. For a recognised word this is
30_encoding.md section 3. For an UNKNOWN word, where the procedure there returns one UNKNOWN without its word, it rests on
the model's own reading that `Instr.unknown` keeps the word (DEDUCED, log 39), and for 5xyN and 9xyN also on the spec's decision D5
(log 9). -/
def Obligations.EncodeDecodeRoundTrip : Prop := ∀ w : Word, encode (decodeWord w) = w

/-- 30_encoding.md section 4: a word is UNKNOWN exactly when no row of the opcode table covers it. Classes 5 and 9 are
strict by the spec's decision D5 (log 9). That the UNKNOWN keeps its word is the model's reading (DEDUCED, log
39). -/
def Obligations.UnknownExactlyOutsideTheTable : Prop :=
  ∀ w : Word, decodeWord w = .unknown w ↔ recognised w = false

/-- Words whose meaning the spec's examples write out, one or more of every family (41_flow.md to 45_keys_timers.md); and
0x0000, which 40_cycle_driver.md section 1 and 30_encoding.md sections 3 and 4 say is UNKNOWN (that it keeps its word is the
model's reading, DEDUCED, log 39). -/
def Obligations.ExampleWordsDecode : Prop :=
  decodeWord 0x00E0 = .cls ∧ decodeWord 0x00EE = .ret ∧ decodeWord 0x1234 = .jp 0x234 ∧
  decodeWord 0x3210 = .seImm 2 0x10 ∧ decodeWord 0x5120 = .seReg 1 2 ∧ decodeWord 0x6005 = .ldImm 0 5 ∧
  decodeWord 0x8014 = .addReg 0 1 ∧ decodeWord 0x840E = .shl 4 0 ∧ decodeWord 0xA300 = .ldI 0x300 ∧
  decodeWord 0xD011 = .drw 0 1 1 ∧ decodeWord 0xE3A1 = .sknp 3 ∧ decodeWord 0xF00A = .ldVxK 0 ∧
  decodeWord 0xF265 = .ldVxMem 2 ∧ decodeWord 0x0000 = .unknown 0x0000

/-! ### The cycle -/

/-- 40_cycle_driver.md sections 1 and 2: a cycle that is not Running changes nothing and reports NoStep. The spec's
decisions D12 (log 14) and, for the result, D24 (log 25). -/
def Obligations.CycleIdleUnlessRunning : Prop :=
  ∀ s : State, s.mode ≠ .running → step s = .next s ∧ cycleResult s = .next .noStep

/-- 40_cycle_driver.md section 1: at or above 4094 the fetch check halts, and nothing else changes, `pc` included; and
section 2: what that cycle reports. The limit is the spec's decision D8 (log 5), the result as an output its D24 (log
25). -/
def Obligations.CycleRejectsProgramCounter : Prop :=
  ∀ s : State, s.mode = .running → 4094 ≤ s.pc.toNat →
    ∃ t : State, step s = .next t ∧ t.mode = .halted .invalidProgramCounter ∧ UnchangedExcept [.mode] s t ∧
      cycleResult s = .next (.haltedAt s.pc none .invalidProgramCounter)

/-- 40_cycle_driver.md R69: the word is the two bytes at `pc`, high byte first; `pc` has advanced by 2, without a wrap,
before the decoded instruction executes; and the advance changes nothing else. -/
def Obligations.CycleRunsTheDecodedInstruction : Prop :=
  ∀ s : State, s.mode = .running → s.pc.toNat < 4094 →
    step s = exec (decodeWord s.wordAtPc) s.advance ∧
    s.wordAtPc.toNat = (s.mem.read s.pc.toNat).toNat * 256 + (s.mem.read (s.pc.toNat + 1)).toNat ∧
    s.advance.pc.toNat = s.pc.toNat + 2 ∧ UnchangedExcept [.pc] s s.advance

/-- 90_conflicts.md C1: the permitted fetch limit 4095 makes a difference at `pc = 4094` only, where the word in the
last two bytes then runs. Both limits are the spec's decision D8 (log 5). -/
def Obligations.FetchLimitsDifferOnlyAt4094 : Prop :=
  ∀ s : State,
    (s.pc.toNat ≠ 4094 → cycleWith 4095 exec s = step s) ∧
    (s.mode = .running → s.pc.toNat = 4094 → cycleWith 4095 exec s = exec (decodeWord s.wordAtPc) s.advance)

/-- 00_scope.md section 4 and 20_memory.md section 4: every instruction and every cycle, under either fetch limit,
answers a next state: no memory primitive is ever called outside the address space (where the model's would fault, log
29), and nothing is refused. -/
def Obligations.EveryCycleAnswersANextState : Prop :=
  (∀ (instr : Instr) (s : State), ∃ t : State, exec instr s = .next t) ∧
  (∀ s : State, ∃ t : State, step s = .next t) ∧ (∀ s : State, ∃ t : State, cycleWith 4095 exec s = .next t)

/-- 40_cycle_driver.md section 1 and 60_exceptions.md section 2: a halting instruction has changed only `pc`, by the
fetch advance, and `MODE`. -/
def Obligations.HaltingCycleIsPrecise : Prop :=
  ∀ (s t : State) (reason : HaltReason), s.mode = .running → s.pc.toNat < 4094 → step s = .next t →
    t.mode = .halted reason → t = s.advance.setMode (.halted reason)

/-- 40_cycle_driver.md section 3: `MODE` changes only along the rows of the transition table, over every host
operation, the cycle among them. The table takes in the spec's decisions D3, D6, D8, D9, D13 and D18 (log 4, 10, 5, 12,
15, 20). -/
def Obligations.ModeMovesOnlyAlongTheTable : Prop :=
  ∀ (op : HostOp) (s t : State), State.apply op s = .next t → t.mode ≠ s.mode → ModeMove s op t.mode

/-- 40_cycle_driver.md section 2: what a cycle that fetched reports; and (60_exceptions.md section 2) after a halt by an
instruction its address is `pc - 2` and its word still stands in memory. The result as an output is the spec's decision
D24 (log 25), the word kept in the UNKNOWN the model's reading (DEDUCED, log 39). -/
def Obligations.CycleResultFollowsTheMode : Prop :=
  ∀ s t : State, s.mode = .running → s.pc.toNat < 4094 → step s = .next t →
    (t.mode = .running → (decodeWord s.wordAtPc = .unknown s.wordAtPc →
      cycleResult s = .next (.unknown s.pc s.wordAtPc))) ∧
    (t.mode = .running → (decodeWord s.wordAtPc ≠ .unknown s.wordAtPc →
      cycleResult s = .next (.executed s.pc s.wordAtPc))) ∧
    (∀ x : Reg, t.mode = .blocked x → cycleResult s = .next (.waitEntered s.pc s.wordAtPc)) ∧
    (∀ reason : HaltReason, t.mode = .halted reason →
      cycleResult s = .next (.haltedAt s.pc (some s.wordAtPc) reason) ∧ t.pc = s.pc + 2 ∧
        wordAt t.mem s.pc.toNat = s.wordAtPc)

/-- 40_cycle_driver.md section 4: an entry stands in the listing exactly when its address is scanned and its word is not
0, addresses rise, and the output of every cycle holds its result and, exactly under `TRACE`, the listing of memory before
or after the cycle. The 2-byte scan, the spelling and the snapshot are the spec's decision D25 (log 7), the output its D24
(log 25). -/
def Obligations.TraceListsNonZeroWords : Prop :=
  (∀ (m : Memory) (a : Nat),
    (∃ e ∈ traceListing m, e.address = a) ↔ 0x200 ≤ a ∧ a ≤ 0xFFE ∧ a % 2 = 0 ∧ wordAt m a ≠ 0) ∧
  (∀ (m : Memory) (e : TraceEntry), e ∈ traceListing m →
    e.instr = decodeWord (wordAt m e.address) ∧ e.text = Config.traceFormat e.instr) ∧
  (∀ m : Memory, (traceListing m).Pairwise fun d e => d.address < e.address) ∧
  (∀ (trace : Bool) (s : State), ∃ (t : State) (o : CycleOutput),
    step s = .next t ∧ cycleOutput trace s = .next o ∧ cycleResult s = .next o.result ∧
    o.listing = if trace = true then
        some (traceListing (if Config.traceSnapshot = .before then s.mem else t.mem))
      else none)

/-! ### Invariants and who may write what -/

/-- The invariant holds at reset: 10_state.md section 1 for `pc`, the stack and the mode. That memory is in canonical form
is about the model's own representation (log 30). -/
def Obligations.ResetMeetsTheInvariant : Prop := State.reset.Inv

/-- Every cycle keeps the invariant: `pc` at most 0x10FE (10_state.md section 4), return addresses at most 4095 (41_flow.md
section 00EE), no key latched in a wait (60_exceptions.md section 5). Its first part, memory in canonical form, is about
the model's own representation and follows from no section of the spec (log 30). -/
def Obligations.CycleKeepsTheInvariant : Prop :=
  ∀ s t : State, s.Inv → step s = .next t → t.Inv

/-- Every sequence of host operations, in any order and number (60_exceptions.md section 5; the free order is the spec's
decision D21, log 22), keeps the invariant. Memory in canonical form is about the model's own representation (log 30). -/
def Obligations.HostOperationsKeepTheInvariant : Prop :=
  ∀ (ops : List HostOp) (s t : State), s.Inv → State.applyAll ops s = .next t → t.Inv

/-- 10_state.md section 4: a cycle leaves `pc` below 0x1000 but for `Bnnn` and for a skip of the word at 4092 or 4093. The
spec's own inference there names `Bnnn` alone; 41_flow.md R80 takes the skip from 4092 to 4096 (DEDUCED, log 33). -/
def Obligations.OnlyComputedJumpsAndLastSkipsLeaveMemory : Prop :=
  ∀ s t : State, s.mode = .running → s.pc.toNat < 4094 → (∀ a ∈ s.stack, a.toNat ≤ 4095) → step s = .next t →
    (∀ nnn : Addr, decodeWord s.wordAtPc ≠ .jpV0 nnn) →
      t.pc.toNat < 0x1000 ∨ (4092 ≤ s.pc.toNat ∧ t.pc.toNat = s.pc.toNat + 4)

/-- 10_state.md sections 2 to 8 and 20_memory.md section 4: an instruction changes no element of the state, and no
general register, beyond those its rules name. That a draw may write the dirty mark and, by halting, the mode are the
spec's decisions D16 and D6 (log 18, 10). -/
def Obligations.InstructionsWriteOnlyTheirOwn : Prop :=
  ∀ (instr : Instr) (s t : State), exec instr s = .next t →
    UnchangedExcept instr.writes s t ∧ RegsUnchangedExcept instr.regsWritten s t

/-- 10_state.md sections 6 and 7: no instruction reads `ST` or `DIRTY`: other values there change nothing else, and stay
unless the instruction writes the element, which then does not depend on them. A draw that halts writes no dirty mark (the
spec's decisions D6 and D16, log 10, 18). -/
def Obligations.SoundTimerAndDirtyAreNeverRead : Prop :=
  ∀ (instr : Instr) (s t : State) (b : Byte) (d : Bool), exec instr s = .next t →
    ∃ u : State, exec instr ((s.setSt b).setDirty d) = .next u ∧ UnchangedExcept [.st, .dirty] t u ∧
      (u.st = if Element.st ∈ instr.writes then t.st else b) ∧
      (u.dirty = if Element.dirty ∈ instr.writes ∧ boundsFail instr s = false then t.dirty else d)

/-- 10_state.md sections 8 and 11: an instruction other than Ex9E, ExA1 and Fx0A does not see `KEY`. -/
def Obligations.OnlyKeyInstructionsReadTheLatch : Prop :=
  ∀ (instr : Instr) (s t : State) (k : Option KeyCode), instr.readsKey = false → exec instr s = .next t →
    ∃ u : State, exec instr (s.setKey k) = .next u ∧ UnchangedExcept [.key] t u ∧ u.key = k

/-! ### Control flow -/

/-- 41_flow.md R77: RET pops, or halts on an empty stack with the stack and `pc` as they are; the address popped is at
most 4095, under the invariant that every step keeps. -/
def Obligations.ReturnPopsOrUnderflows : Prop :=
  decodeWord 0x00EE = .ret ∧
  (∀ (s : State) (below : List Word) (a : Word), s.stack = below ++ [a] →
    ∃ t : State, exec .ret s = .next t ∧ t.pc = a ∧ t.stack = below ∧ UnchangedExcept [.pc, .stack] s t) ∧
  (∀ s : State, s.stack = [] →
    ∃ t : State, exec .ret s = .next t ∧ t.mode = .halted .stackUnderflow ∧ UnchangedExcept [.mode] s t) ∧
  (∀ (s : State) (below : List Word) (a : Word), s.Inv → s.stack = below ++ [a] → a.toNat ≤ 4095)

/-- 41_flow.md R78: JP sets `pc` to the operand, zero-extended; a target at or above 0xFFE halts at the next cycle; a jump
to itself repeats for ever, since its cycle leaves the whole state as it was. -/
def Obligations.JumpSetsProgramCounter : Prop :=
  ∀ nnn : Addr, decodeWord (wordNnn 1 nnn) = .jp nnn ∧
    ∀ s : State, ∃ t : State, exec (.jp nnn) s = .next t ∧ t.pc.toNat = nnn.toNat ∧ UnchangedExcept [.pc] s t ∧
      (s.mode = .running → 0xFFE ≤ nnn.toNat → step t = .next (t.setMode (.halted .invalidProgramCounter))) ∧
      (s.mode = .running → s.pc.toNat = nnn.toNat → nnn.toNat < 0xFFE → s.wordAtPc = wordNnn 1 nnn → step s = .next s)

/-- 41_flow.md section 2nnn: CALL pushes the address after it and jumps. The unbounded stack is the spec's decision D3
(log 4); under a bounded one a full stack halts and any other runs the same. -/
def Obligations.CallPushesReturnAddress : Prop :=
  ∀ nnn : Addr, decodeWord (wordNnn 2 nnn) = .call nnn ∧
    ∀ s : State,
      (∃ t : State, exec (.call nnn) s = .next t ∧ t.pc.toNat = nnn.toNat ∧ t.stack = s.stack ++ [s.pc] ∧
        UnchangedExcept [.pc, .stack] s t) ∧
      (∀ limit : Nat, s.stack.length = limit →
        callWith (some limit) nnn s = .next (s.setMode (.halted .stackOverflow))) ∧
      (∀ limit : Nat, s.stack.length ≠ limit → callWith (some limit) nnn s = exec (.call nnn) s)

/-- 41_flow.md R77, R79: after a CALL, whatever runs in between, a RET with the stack as the CALL left it goes to the
address after the CALL and leaves the stack as it was before. That every CALL succeeds is the spec's decision D3 (log
4). -/
def Obligations.ReturnUndoesCall : Prop :=
  ∀ (nnn : Addr) (s t u : State), exec (.call nnn) s = .next t → u.stack = t.stack →
    ∃ r : State, exec .ret u = .next r ∧ r.pc = s.pc ∧ r.stack = s.stack ∧ UnchangedExcept [.pc, .stack] u r

/-- 41_flow.md R80, R81: the skips on an immediate; the skipped word has no part in the result, and a skip from 4092 ends at
4096, where the next cycle halts. -/
def Obligations.ImmediateSkipsCompare : Prop :=
  ∀ (x : Reg) (kk : Byte),
    decodeWord (wordXkk 3 x kk) = .seImm x kk ∧ decodeWord (wordXkk 4 x kk) = .sneImm x kk ∧
    ∀ s : State,
      (∃ t : State, exec (.seImm x kk) s = .next t ∧
        t.pc = (if (s.reg x).toNat = kk.toNat then s.pc + 2 else s.pc) ∧ UnchangedExcept [.pc] s t ∧
        (s.mode = .running → s.pc.toNat = 4094 → (s.reg x).toNat = kk.toNat →
          t.pc.toNat = 4096 ∧ step t = .next (t.setMode (.halted .invalidProgramCounter)))) ∧
      (∃ t : State, exec (.sneImm x kk) s = .next t ∧
        t.pc = (if (s.reg x).toNat = kk.toNat then s.pc else s.pc + 2) ∧ UnchangedExcept [.pc] s t ∧
        (s.mode = .running → s.pc.toNat = 4094 → (s.reg x).toNat ≠ kk.toNat →
          t.pc.toNat = 4096 ∧ step t = .next (t.setMode (.halted .invalidProgramCounter))))

/-- 41_flow.md section on skips: the skips on two registers; with a low nibble that is not 0 the word is UNKNOWN, which
is the spec's decision D5 (log 9), the word kept in it the model's reading (DEDUCED, log 39). -/
def Obligations.RegisterSkipsCompare : Prop :=
  ∀ x y : Reg,
    decodeWord (wordXyn 5 x y 0) = .seReg x y ∧ decodeWord (wordXyn 9 x y 0) = .sneReg x y ∧
    (∀ n : RowCount, n ≠ 0 → decodeWord (wordXyn 5 x y n) = .unknown (wordXyn 5 x y n) ∧
      decodeWord (wordXyn 9 x y n) = .unknown (wordXyn 9 x y n)) ∧
    ∀ s : State,
      (∃ t : State, exec (.seReg x y) s = .next t ∧
        t.pc = (if (s.reg x).toNat = (s.reg y).toNat then s.pc + 2 else s.pc) ∧ UnchangedExcept [.pc] s t) ∧
      (∃ t : State, exec (.sneReg x y) s = .next t ∧
        t.pc = (if (s.reg x).toNat = (s.reg y).toNat then s.pc else s.pc + 2) ∧ UnchangedExcept [.pc] s t)

/-- 41_flow.md R84: the computed jump adds `V[0]`, whatever field `x` is, exactly and with no mask; a target at or above
the fetch limit halts at the next cycle. -/
def Obligations.ComputedJumpAddsV0 : Prop :=
  ∀ nnn : Addr, decodeWord (wordNnn 0xB nnn) = .jpV0 nnn ∧
    ∀ s : State, ∃ t : State, exec (.jpV0 nnn) s = .next t ∧ t.pc.toNat = nnn.toNat + (s.reg 0).toNat ∧
      t.pc.toNat ≤ 0x10FE ∧ UnchangedExcept [.pc] s t ∧
      (s.mode = .running → Config.pcFetchLimit ≤ t.pc.toNat →
        step t = .next (t.setMode (.halted .invalidProgramCounter)))

/-- 40_cycle_driver.md sections 1 and 2: an UNKNOWN word, 0x0000 among them, changes nothing; its cycle only advances `pc`
and reports the word and its address. That the UNKNOWN keeps its word is the model's reading (DEDUCED, log 39); the result
as an output is the spec's decision D24 (log 25). -/
def Obligations.UnknownWordIsReportedNoOp : Prop :=
  decodeWord 0x0000 = .unknown 0x0000 ∧
  (∀ (w : Word) (s : State), exec (.unknown w) s = .next s) ∧
  (∀ s : State, s.mode = .running → s.pc.toNat < 4094 → decodeWord s.wordAtPc = .unknown s.wordAtPc →
    step s = .next s.advance ∧ cycleResult s = .next (.unknown s.pc s.wordAtPc))

/-! ### Register loads and arithmetic -/

/-- 42_alu.md R85, R86: the immediate load and the immediate add, which writes no flag unless `x = F`. -/
def Obligations.ImmediateLoadAndAdd : Prop :=
  ∀ (x : Reg) (kk : Byte),
    decodeWord (wordXkk 6 x kk) = .ldImm x kk ∧ decodeWord (wordXkk 7 x kk) = .addImm x kk ∧
    ∀ s : State,
      (∃ t : State, exec (.ldImm x kk) s = .next t ∧ t.reg x = kk ∧
        RegsUnchangedExcept [x] s t ∧ UnchangedExcept [.regs] s t) ∧
      (∃ t : State, exec (.addImm x kk) s = .next t ∧ (t.reg x).toNat = ((s.reg x).toNat + kk.toNat) % 256 ∧
        RegsUnchangedExcept [x] s t ∧ UnchangedExcept [.regs] s t)

/-- 42_alu.md R87 to R90: the move and the bitwise operations; `VF` is not reset. -/
def Obligations.MovesAndBitwiseLogic : Prop :=
  ∀ x y : Reg,
    decodeWord (wordXyn 8 x y 0) = .ldReg x y ∧ decodeWord (wordXyn 8 x y 1) = .orReg x y ∧
    decodeWord (wordXyn 8 x y 2) = .andReg x y ∧ decodeWord (wordXyn 8 x y 3) = .xorReg x y ∧
    ∀ s : State,
      (∃ t : State, exec (.ldReg x y) s = .next t ∧ t.reg x = s.reg y ∧
        RegsUnchangedExcept [x] s t ∧ UnchangedExcept [.regs] s t) ∧
      (∃ t : State, exec (.orReg x y) s = .next t ∧
        (∀ b : Nat, (t.reg x).getLsbD b = ((s.reg x).getLsbD b || (s.reg y).getLsbD b)) ∧
        RegsUnchangedExcept [x] s t ∧ UnchangedExcept [.regs] s t) ∧
      (∃ t : State, exec (.andReg x y) s = .next t ∧
        (∀ b : Nat, (t.reg x).getLsbD b = ((s.reg x).getLsbD b && (s.reg y).getLsbD b)) ∧
        RegsUnchangedExcept [x] s t ∧ UnchangedExcept [.regs] s t) ∧
      (∃ t : State, exec (.xorReg x y) s = .next t ∧
        (∀ b : Nat, (t.reg x).getLsbD b = ((s.reg x).getLsbD b ^^ (s.reg y).getLsbD b)) ∧
        RegsUnchangedExcept [x] s t ∧ UnchangedExcept [.regs] s t)

/-- 42_alu.md R91: the register add with its carry; with `x = F` the last write wins and the carry is lost. -/
def Obligations.RegisterAddSetsCarry : Prop :=
  ∀ x y : Reg, decodeWord (wordXyn 8 x y 4) = .addReg x y ∧
    ∀ s : State, ∃ t : State, exec (.addReg x y) s = .next t ∧
      (t.reg x).toNat = ((s.reg x).toNat + (s.reg y).toNat) % 256 ∧
      (x ≠ regF → t.reg regF = if (s.reg x).toNat + (s.reg y).toNat > 255 then 1 else 0) ∧
      RegsUnchangedExcept [regF, x] s t ∧ UnchangedExcept [.regs] s t

/-- 42_alu.md section on flags: both subtractions set `VF` on strictly greater, and subtract the operands as they read
after that write. The order is the spec's decision D4 (log 8), and shows only when an operand is `VF`. -/
def Obligations.SubtractionsFlagStrictlyGreater : Prop :=
  ∀ x y : Reg,
    decodeWord (wordXyn 8 x y 5) = .sub x y ∧ decodeWord (wordXyn 8 x y 7) = .subn x y ∧
    ∀ s : State,
      (∃ (t : State) (flag vx vy : Nat), exec (.sub x y) s = .next t ∧
        flag = (if (s.reg x).toNat > (s.reg y).toNat then 1 else 0) ∧
        vx = (if x = regF then flag else (s.reg x).toNat) ∧ vy = (if y = regF then flag else (s.reg y).toNat) ∧
        (t.reg x).toNat = (256 + vx - vy) % 256 ∧ (x ≠ regF → (t.reg regF).toNat = flag) ∧
        RegsUnchangedExcept [regF, x] s t ∧ UnchangedExcept [.regs] s t) ∧
      (∃ (t : State) (flag vx vy : Nat), exec (.subn x y) s = .next t ∧
        flag = (if (s.reg y).toNat > (s.reg x).toNat then 1 else 0) ∧
        vx = (if x = regF then flag else (s.reg x).toNat) ∧ vy = (if y = regF then flag else (s.reg y).toNat) ∧
        (t.reg x).toNat = (256 + vy - vx) % 256 ∧ (x ≠ regF → (t.reg regF).toNat = flag) ∧
        RegsUnchangedExcept [regF, x] s t ∧ UnchangedExcept [.regs] s t)

/-- 42_alu.md section on flags: the shifts by one, the bit shifted out in `VF`, and `y` without effect. With `x = F` the
shift acts on the flag just written, by the spec's decision D4 (log 8). -/
def Obligations.ShiftsMoveOneBitOut : Prop :=
  ∀ x y : Reg,
    decodeWord (wordXyn 8 x y 6) = .shr x y ∧ decodeWord (wordXyn 8 x y 0xE) = .shl x y ∧
    ∀ s : State,
      (∃ t : State, exec (.shr x y) s = .next t ∧
        (x ≠ regF → (t.reg x).toNat = (s.reg x).toNat / 2 ∧ (t.reg regF).toNat = (s.reg x).toNat % 2) ∧
        (x = regF → t.reg regF = 0) ∧ (∀ y' : Reg, exec (.shr x y') s = .next t) ∧
        RegsUnchangedExcept [regF, x] s t ∧ UnchangedExcept [.regs] s t) ∧
      (∃ t : State, exec (.shl x y) s = .next t ∧
        (x ≠ regF → (t.reg x).toNat = 2 * (s.reg x).toNat % 256 ∧ (t.reg regF).toNat = (s.reg x).toNat / 128) ∧
        (x = regF → (t.reg regF).toNat = 2 * ((s.reg x).toNat / 128)) ∧ (∀ y' : Reg, exec (.shl x y') s = .next t) ∧
        RegsUnchangedExcept [regF, x] s t ∧ UnchangedExcept [.regs] s t)

/-- 42_alu.md section Cxkk: a random byte, masked. The byte is the model's free value for this draw (the spec's decision
D20, log 6), whatever the draw number, and the next draw is another one. -/
def Obligations.RandomByteIsMasked : Prop :=
  ∀ (x : Reg) (kk : Byte), decodeWord (wordXkk 0xC x kk) = .rnd x kk ∧
    ∀ s : State, ∃ t : State, exec (.rnd x kk) s = .next t ∧ t.draws = s.draws + 1 ∧
      (∀ b : Nat, (t.reg x).getLsbD b = ((Config.randomByte s.draws).getLsbD b && kk.getLsbD b)) ∧
      (kk = 0 → t.reg x = 0) ∧ (kk = 0xFF → t.reg x = Config.randomByte s.draws) ∧
      RegsUnchangedExcept [x] s t ∧ UnchangedExcept [.regs, .draws] s t

/-! ### The address register and memory transfers -/

/-- 43_index_memory.md R98: `I` takes the operand, zero-extended. -/
def Obligations.LoadAddressSetsI : Prop :=
  ∀ nnn : Addr, decodeWord (wordNnn 0xA nnn) = .ldI nnn ∧
    ∀ s : State, ∃ t : State, exec (.ldI nnn) s = .next t ∧ t.i.toNat = nnn.toNat ∧ UnchangedExcept [.i] s t

/-- 43_index_memory.md section Fx1E: `VF` becomes 1 exactly when the exact sum is above 4096, and is otherwise as it was.
The reduction modulo 2^16 is the spec's decision D7 (log 11). -/
def Obligations.AddToIFlagsAboveMemory : Prop :=
  ∀ x : Reg, decodeWord (wordXkk 0xF x 0x1E) = .addIVx x ∧
    ∀ s : State, ∃ t : State, exec (.addIVx x) s = .next t ∧
      t.i.toNat = (s.i.toNat + (s.reg x).toNat) % 65536 ∧
      t.reg regF = (if s.i.toNat + (s.reg x).toNat > 4096 then 1 else s.reg regF) ∧
      RegsUnchangedExcept [regF] s t ∧ UnchangedExcept [.i, .regs] s t

/-- 43_index_memory.md section Fx29: the glyph address, exact and unmasked, at any font base the spec's decision D1
allows (log 1). -/
def Obligations.FontAddressIsUnmasked : Prop :=
  Config.fontBase + 80 ≤ 0x200 ∧
  ∀ x : Reg, decodeWord (wordXkk 0xF x 0x29) = .ldFVx x ∧
    ∀ s : State, ∃ t : State, exec (.ldFVx x) s = .next t ∧
      t.i.toNat = Config.fontBase + 5 * (s.reg x).toNat ∧ UnchangedExcept [.i] s t

/-- 43_index_memory.md R101: the decimal digits of a byte. -/
def Obligations.DecimalDigitsOfAByte : Prop :=
  ∀ b : Byte, (hundreds b).toNat = b.toNat / 100 ∧ (tens b).toNat = b.toNat / 10 % 10 ∧
    (ones b).toNat = b.toNat % 10 ∧ (hundreds b).toNat ≤ 2 ∧ (tens b).toNat ≤ 9 ∧ (ones b).toNat ≤ 9 ∧
    100 * (hundreds b).toNat + 10 * (tens b).toNat + (ones b).toNat = b.toNat

/-- 43_index_memory.md section Fx33: halt with nothing written when `I + 2` is outside memory, else the digits at `I`,
`I + 1`, `I + 2`, except where `FONT_WRITE` discards a store (log 3). The bound is the spec's decision D9 (log 12). -/
def Obligations.DecimalStoreWritesThreeBytes : Prop :=
  ∀ x : Reg, decodeWord (wordXkk 0xF x 0x33) = .ldBVx x ∧
    (∀ s : State, 4096 ≤ s.i.toNat + 2 →
      ∃ t : State, exec (.ldBVx x) s = .next t ∧ t.mode = .halted .invalidMemoryAccess ∧ UnchangedExcept [.mode] s t) ∧
    (∀ s : State, s.i.toNat + 2 < 4096 →
      ∃ t : State, exec (.ldBVx x) s = .next t ∧ UnchangedExcept [.mem] s t ∧
        ∀ a : Nat, t.mem.read a =
          if storable a = false then s.mem.read a
          else if a = s.i.toNat then hundreds (s.reg x)
          else if a = s.i.toNat + 1 then tens (s.reg x)
          else if a = s.i.toNat + 2 then ones (s.reg x)
          else s.mem.read a)

/-- 43_index_memory.md section Fx55: halt with nothing written when `I + x` is outside memory, else `V[0..x]` at `I` and
up, except where `FONT_WRITE` discards a store (log 3). The bound is the spec's decision D9 (log 12). -/
def Obligations.BlockStoreWritesRegisters : Prop :=
  ∀ x : Reg, decodeWord (wordXkk 0xF x 0x55) = .ldMemVx x ∧
    (∀ s : State, 4096 ≤ s.i.toNat + x.val →
      ∃ t : State, exec (.ldMemVx x) s = .next t ∧ t.mode = .halted .invalidMemoryAccess ∧
        UnchangedExcept [.mode] s t) ∧
    (∀ s : State, s.i.toNat + x.val < 4096 →
      ∃ t : State, exec (.ldMemVx x) s = .next t ∧ UnchangedExcept [.mem] s t ∧
        (∀ r : Reg, r ≤ x → storable (s.i.toNat + r.val) = true → t.mem.read (s.i.toNat + r.val) = s.reg r) ∧
        (∀ a : Nat, a < s.i.toNat ∨ s.i.toNat + x.val < a ∨ storable a = false → t.mem.read a = s.mem.read a))

/-- 43_index_memory.md section Fx65: halt with no register written when `I + x` is outside memory, else `V[0..x]` from
`I` and up. The bound is the spec's decision D9 (log 12). -/
def Obligations.BlockLoadReadsRegisters : Prop :=
  ∀ x : Reg, decodeWord (wordXkk 0xF x 0x65) = .ldVxMem x ∧
    (∀ s : State, 4096 ≤ s.i.toNat + x.val →
      ∃ t : State, exec (.ldVxMem x) s = .next t ∧ t.mode = .halted .invalidMemoryAccess ∧
        UnchangedExcept [.mode] s t) ∧
    (∀ s : State, s.i.toNat + x.val < 4096 →
      ∃ t : State, exec (.ldVxMem x) s = .next t ∧ UnchangedExcept [.regs] s t ∧
        ∀ r : Reg, t.reg r = if r ≤ x then s.mem.read (s.i.toNat + r.val) else s.reg r)

/-- 43_index_memory.md section Fx65, corner case: a block store and then, whatever happens to the registers in between,
a block load with the same `I` and `x` restores `V[0..x]`, if no store was discarded (log 3). -/
def Obligations.BlockStoreThenLoadRestores : Prop :=
  ∀ (x : Reg) (s t u : State), s.i.toNat + x.val < 4096 →
    (∀ r : Reg, r ≤ x → storable (s.i.toNat + r.val) = true) → exec (.ldMemVx x) s = .next t →
    u.i = s.i → State.agrees .mem t u →
      ∃ w : State, exec (.ldVxMem x) u = .next w ∧ ∀ r : Reg, w.reg r = if r ≤ x then s.reg r else u.reg r

/-- 20_memory.md section 4: under `store` every byte is stored, under `discard` exactly the font region is not, and
nothing else of the state changes under either. `FONT_WRITE` is OPEN by the spec's decision D10 (log 3). -/
def Obligations.FontRegionFollowsThePolicy : Prop :=
  Config.fontBase + 80 ≤ 0x200 ∧
  (∀ a : Nat, storableUnder .store a = true) ∧
  (∀ a : Nat, storableUnder .discard a = true ↔ ¬(Config.fontBase ≤ a ∧ a < Config.fontBase + 80)) ∧
  (∀ (a : Nat) (b : Byte) (s : State), a < 4096 →
    ∃ t : State, memWrite a b s = .next t ∧ UnchangedExcept [.mem] s t ∧
      ∀ c : Nat, t.mem.read c =
        if c = a ∧ storableUnder Config.fontWrite a = true then b else s.mem.read c)

/-- Two memories in canonical form that read the same everywhere are the same data (log 30). -/
def Obligations.CanonicalMemoryIsUnique : Prop :=
  ∀ m k : Memory, m.wf = true → k.wf = true → (∀ a : Nat, m.read a = k.read a) → m = k

/-! ### The display -/

/-- 44_display.md R105: CLS clears every pixel and sets the dirty mark, whatever the display held. -/
def Obligations.ClearScreenClearsAndMarks : Prop :=
  decodeWord 0x00E0 = .cls ∧
  ∀ s : State, ∃ t : State, exec .cls s = .next t ∧ (∀ r c : Nat, t.disp.pixel r c = false) ∧ t.dirty = true ∧
    UnchangedExcept [.disp, .dirty] s t

/-- 44_display.md section Dxyn: a draw halts, changing nothing else, exactly when a row that would be drawn has its byte
outside memory, and otherwise completes with the mode as it was: the spec's decision D6 (log 10). -/
def Obligations.DrawHaltsOutsideMemory : Prop :=
  ∀ (x y : Reg) (n : RowCount) (s : State),
    ((∃ k : Nat, k < n.val ∧ (s.reg y).toNat % 32 + k < 32 ∧ 4096 ≤ s.i.toNat + k) ↔ drawHalts y n s = true) ∧
    (drawHalts y n s = true →
      ∃ t : State, exec (.drw x y n) s = .next t ∧ t.mode = .halted .invalidMemoryAccess ∧ UnchangedExcept [.mode] s t) ∧
    (drawHalts y n s = false → ∃ t : State, exec (.drw x y n) s = .next t ∧ t.mode = s.mode)

/-- 44_display.md section Dxyn: a draw that completes inverts exactly the pixels that the sprite's 1 bits cover inside
the grid, and changes `VF` and the dirty mark besides. The bound is the spec's decision D6 (log 10), the dirty mark its
decision D16 (log 18). -/
def Obligations.DrawInvertsTheSpritesPixels : Prop :=
  ∀ (x y : Reg) (n : RowCount), decodeWord (wordXyn 0xD x y n) = .drw x y n ∧
    ∀ s : State, drawHalts y n s = false →
      ∃ t : State, exec (.drw x y n) s = .next t ∧
        (∀ r c : Nat, t.disp.pixel r c = (s.disp.pixel r c ^^ spriteCovers x y n s r c)) ∧ t.dirty = true ∧
        RegsUnchangedExcept [regF] s t ∧ UnchangedExcept [.regs, .disp, .dirty] s t

/-- 44_display.md R108: after a completed draw `VF` is 1 exactly when some sprite bit turned a set pixel off, and 0
otherwise, whatever it was before. -/
def Obligations.CollisionFlagIsExact : Prop :=
  ∀ (x y : Reg) (n : RowCount) (s : State), drawHalts y n s = false →
    ∃ t : State, exec (.drw x y n) s = .next t ∧
      ((∃ r c : Nat, s.disp.pixel r c = true ∧ t.disp.pixel r c = false) → t.reg regF = 1) ∧
      ((∀ r c : Nat, s.disp.pixel r c = true → t.disp.pixel r c = true) → t.reg regF = 0)

/-- 44_display.md section Dxyn, last paragraphs: drawing the same sprite again at the same place restores the display,
and then `VF` is 1 exactly when some 1 bit of the sprite fell on a pixel that was clear before the first draw. The
spec's R109 infers "exactly when the sprite has at least one 1 bit inside the buffer", which R107 gives only where those
pixels were not all set before (DEDUCED, log 37). -/
def Obligations.DrawingTwiceRestoresTheDisplay : Prop :=
  ∀ (x y : Reg) (n : RowCount) (s t u : State), drawHalts y n s = false → exec (.drw x y n) s = .next t →
    State.agrees .mem t u → u.i = t.i → u.disp = t.disp → u.reg x = s.reg x → u.reg y = s.reg y →
      ∃ w : State, exec (.drw x y n) u = .next w ∧ (∀ r c : Nat, w.disp.pixel r c = s.disp.pixel r c) ∧
        ((∃ r c : Nat, spriteCovers x y n s r c = true ∧ s.disp.pixel r c = false) → w.reg regF = 1) ∧
        ((∀ r c : Nat, spriteCovers x y n s r c = true → s.disp.pixel r c = true) → w.reg regF = 0)

/-! ### The keypad and the timers -/

/-- 45_keys_timers.md R111, R112: the key skips; the latch is not consumed. -/
def Obligations.KeySkipsTestTheLatch : Prop :=
  ∀ x : Reg, decodeWord (wordXkk 0xE x 0x9E) = .skp x ∧ decodeWord (wordXkk 0xE x 0xA1) = .sknp x ∧
    ∀ s : State,
      (∃ t : State, exec (.skp x) s = .next t ∧ UnchangedExcept [.pc] s t ∧
        ((∃ k : KeyCode, s.key = some k ∧ k.val = (s.reg x).toNat) → t.pc = s.pc + 2) ∧
        ((∀ k : KeyCode, s.key = some k → k.val ≠ (s.reg x).toNat) → t.pc = s.pc)) ∧
      (∃ t : State, exec (.sknp x) s = .next t ∧ UnchangedExcept [.pc] s t ∧
        ((∃ k : KeyCode, s.key = some k ∧ k.val = (s.reg x).toNat) → t.pc = s.pc) ∧
        ((∀ k : KeyCode, s.key = some k → k.val ≠ (s.reg x).toNat) → t.pc = s.pc + 2))

/-- 45_keys_timers.md R113, R115, R116: the timer transfers. -/
def Obligations.TimerTransfersMoveBytes : Prop :=
  ∀ x : Reg,
    decodeWord (wordXkk 0xF x 0x07) = .ldVxDt x ∧ decodeWord (wordXkk 0xF x 0x15) = .ldDtVx x ∧
    decodeWord (wordXkk 0xF x 0x18) = .ldStVx x ∧
    ∀ s : State,
      (∃ t : State, exec (.ldVxDt x) s = .next t ∧ t.reg x = s.dt ∧
        RegsUnchangedExcept [x] s t ∧ UnchangedExcept [.regs] s t) ∧
      (∃ t : State, exec (.ldDtVx x) s = .next t ∧ t.dt = s.reg x ∧ UnchangedExcept [.dt] s t) ∧
      (∃ t : State, exec (.ldStVx x) s = .next t ∧ t.st = s.reg x ∧ UnchangedExcept [.st] s t)

/-- 45_keys_timers.md R114: a latched key is taken and consumed; with none the machine waits, `pc` not rolled back and
the target register unchanged, while cycles and ticks change nothing, until the host's key press writes the register and
execution resumes at that same `pc`. -/
def Obligations.KeyWaitTakesOrBlocks : Prop :=
  ∀ x : Reg, decodeWord (wordXkk 0xF x 0x0A) = .ldVxK x ∧
    (∀ (s : State) (k : KeyCode), s.key = some k →
      ∃ t : State, exec (.ldVxK x) s = .next t ∧ (t.reg x).toNat = k.val ∧ t.key = none ∧
        RegsUnchangedExcept [x] s t ∧ UnchangedExcept [.regs, .key] s t) ∧
    (∀ s : State, s.key = none →
      ∃ t : State, exec (.ldVxK x) s = .next t ∧ t.mode = .blocked x ∧ UnchangedExcept [.mode] s t ∧
        step t = .next t ∧ State.apply .tick t = .next t ∧
        ∀ k : KeyCode, ∃ u : State, State.apply (.pressKey k.val) t = .next u ∧ (u.reg x).toNat = k.val ∧
          u.mode = .running ∧ u.pc = s.pc)

/-! ### The host's operations -/

/-- 10_state.md section 1 and 70_reset_and_hazards.md section 1: the reset state, font and zeros in memory included, and
`reset()` from every state, which keeps only the model's draw number (log 34). The values of `KEY` and `DIRTY` are the
spec's decision D15 (log 17), the font base and bytes its D1 and D2 (log 1, 2). -/
def Obligations.ResetRestoresEveryElement : Prop :=
  ∀ s : State, ∃ t : State, State.apply .reset s = .next t ∧ UnchangedExcept [.draws] State.reset t ∧
    t.draws = s.draws ∧ t.pc.toNat = 0x200 ∧ (∀ r : Reg, t.reg r = 0) ∧ t.i = 0 ∧ t.stack = [] ∧ t.dt = 0 ∧ t.st = 0 ∧
    (∀ r c : Nat, t.disp.pixel r c = false) ∧ t.dirty = true ∧ t.mode = .running ∧ t.key = none ∧
    (∀ j : Fin 80, t.mem.read (Config.fontBase + j.val) = Config.fontData[j.val]) ∧
    (∀ a : Nat, a < Config.fontBase ∨ Config.fontBase + 80 ≤ a → t.mem.read a = 0)

/-- 60_exceptions.md section 5: a tick decrements both timers, to 0 and no further, while Running, and changes nothing
otherwise. The halted case is the spec's decision D17 (log 19). -/
def Obligations.TickCountsBothTimersDown : Prop :=
  ∀ s : State, ∃ t : State, State.apply .tick s = .next t ∧ UnchangedExcept [.dt, .st] s t ∧
    (s.mode = .running → t.dt.toNat = s.dt.toNat - 1 ∧ t.st.toNat = s.st.toNat - 1) ∧
    (s.mode ≠ .running → t.dt = s.dt ∧ t.st = s.st)

/-- 60_exceptions.md section 5: key presses and releases in each mode. The consumed key is the spec's decision D14 (log
16), the refused code its D26 (log 26), the halted case its D27 (log 27). -/
def Obligations.KeyEventsFollowTheMode : Prop :=
  ∀ s : State,
    (∀ code : Nat, 16 ≤ code → State.apply (.pressKey code) s = .refused (.keyCodeOutOfRange code)) ∧
    (∀ k : KeyCode, ∃ t : State, State.apply (.pressKey k.val) s = .next t ∧
      (s.mode = .running → t.key = some k ∧ UnchangedExcept [.key] s t) ∧
      (∀ target : Reg, s.mode = .blocked target → (t.reg target).toNat = k.val ∧ t.mode = .running ∧ t.key = none ∧
        RegsUnchangedExcept [target] s t ∧ UnchangedExcept [.regs, .mode, .key] s t) ∧
      (s.isHalted = true → t = s)) ∧
    (∃ t : State, State.apply .releaseKey s = .next t ∧
      (s.isHalted = false → t.key = none ∧ UnchangedExcept [.key] s t) ∧ (s.isHalted = true → t = s))

/-- 60_exceptions.md section 5: the host's halt takes effect unless the machine is already halted, which keeps its first
reason: the spec's decision D13 (log 15). -/
def Obligations.HaltRequestKeepsTheFirstReason : Prop :=
  ∀ (message : String) (s : State), ∃ t : State, State.apply (.halt message) s = .next t ∧
    (s.isHalted = false → t.mode = .halted (.external message)) ∧ (s.isHalted = true → t.mode = s.mode) ∧
    UnchangedExcept [.mode] s t

/-- 70_reset_and_hazards.md R142: a program image of at most 3584 bytes is copied to 0x200 and up, byte for byte, over
the reset state. -/
def Obligations.LoadProgramCopiesTheImage : Prop :=
  ∀ (bytes : List Byte) (s t : State), bytes.length ≤ 3584 → State.apply .reset s = .next t →
    ∃ u : State, State.apply (.loadProgram bytes) s = .next u ∧ UnchangedExcept [.mem] t u ∧
      (∀ (j : Nat) (h : j < bytes.length), u.mem.read (0x200 + j) = bytes[j]) ∧
      (∀ a : Nat, a < 0x200 ∨ 0x200 + bytes.length ≤ a → u.mem.read a = t.mem.read a)

/-- 70_reset_and_hazards.md section 1: a longer image resets the machine and halts it, with no byte copied: the spec's
decision D18 (log 20). -/
def Obligations.LongProgramHalts : Prop :=
  ∀ (bytes : List Byte) (s t : State), 3584 < bytes.length → State.apply .reset s = .next t →
    ∃ u : State, State.apply (.loadProgram bytes) s = .next u ∧ u.mode = .halted .programTooLarge ∧
      UnchangedExcept [.mode] t u

/-- 60_exceptions.md sections 2 and 6: in Halted, whatever the host does short of a reset or a load, the mode stays, and
nothing but the dirty mark can change. Several of the cases are the spec's decisions D12, D13, D17, D27 (log 14, 15, 19,
27). -/
def Obligations.HaltedCoreIsQuiescent : Prop :=
  ∀ (ops : List HostOp) (s t : State), s.isHalted = true →
    (∀ op ∈ ops, op ≠ .reset ∧ ∀ bytes : List Byte, op ≠ .loadProgram bytes) → State.applyAll ops s = .next t →
      t = s ∨ t = s.setDirty false

/-- 60_exceptions.md section 5: the reads and `clearDirty` change nothing else, and the views of `MODE` exclude each
other (10_state.md section 8; the three-valued mode is the spec's decision D11, log 13). -/
def Obligations.HostReadsAndDirtyMark : Prop :=
  ∀ s : State,
    State.apply .read s = .next s ∧
    (∃ t : State, State.apply .clearDirty s = .next t ∧ t.dirty = false ∧ UnchangedExcept [.dirty] s t) ∧
    ¬(s.view.halted = true ∧ s.view.blockedOnKey = true) ∧
    (∀ reason : HaltReason, s.view.haltMessage = some reason ↔ s.mode = .halted reason) ∧
    (∀ target : Reg, s.view.waitTarget = some target ↔ s.mode = .blocked target) ∧
    (s.view.halted = s.view.haltMessage.isSome) ∧ (s.view.blockedOnKey = s.view.waitTarget.isSome)
end

