-- ==== Sys2Proof/Laws/Memory.lean ====
section
/-!
SUPPORT. What the memory operations do: reads after writes, the canonical form kept, and the loads and stores of byte
sequences as one equation each.
-/
namespace Sys2Proof.Machine

/-! ### The font region -/

/-- The font lies below the program (00_scope.md R7). -/
theorem fontBase_fits : Config.fontBase + Config.fontSize ≤ Config.progBase := by
  have h := Config.fontBaseIndex.isLt
  simp only [Config.fontBase, Config.fontSize, Config.progBase]
  omega

/-- The font test is the region of 20_memory.md R44. -/
theorem inFont_iff (a : Nat) :
    inFont a = true ↔ Config.fontBase ≤ a ∧ a < Config.fontBase + Config.fontSize := by
  have h := fontBase_fits
  simp only [inFont, Bool.and_eq_true, decide_eq_true_eq]
  omega

/-- At and above `PROG_BASE` an unlisted address reads as 0. -/
theorem resetByte_of_progBase_le {a : Nat} (h : Config.progBase ≤ a) : resetByte a = 0 := by
  have hf : inFont a = false := by simp [inFont, Nat.not_lt.mpr h]
  simp [resetByte, hf]

/-- Whether a store stores is the machine's `FONT_WRITE` policy. -/
theorem storable_eq (a : Nat) : storable a = storableUnder Config.fontWrite a := by
  cases hp : Config.fontWrite with
  | store => simp [storable, storableUnder, hp]
  | discard =>
    have h := fontBase_fits
    have hi := inFont_iff a
    by_cases hb : a < Config.progBase
    · simp [storable, storableUnder, hp, hb]
    · have hf : inFont a = false := by
        rw [← Bool.not_eq_true, hi]
        omega
      simp [storable, storableUnder, hb, hf]

/-- Nothing at or above `PROG_BASE` is discarded. -/
theorem storable_of_progBase_le {a : Nat} (h : Config.progBase ≤ a) : storable a = true := by
  simp [storable, Nat.not_lt.mpr h]

/-! ### Reads after writes -/

@[simp] theorem Memory.read_nil (a : Nat) : Memory.read [] a = resetByte a := rfl

theorem Memory.read_cons (b : Nat) (v : Byte) (rest : Memory) (a : Nat) :
    Memory.read ((b, v) :: rest) a = if a = b then v else Memory.read rest a := rfl

theorem Memory.read_put (m : Memory) (a : Nat) (v : Byte) (b : Nat) :
    (Memory.put m a v).read b = if b = a then v else m.read b := by
  induction m with
  | nil => simp [Memory.put, Memory.read_cons]
  | cons c rest ih =>
    obtain ⟨d, w⟩ := c
    simp only [Memory.put]
    split
    · simp [Memory.read_cons]
    · split
      · subst_vars
        by_cases h : b = d <;> simp [Memory.read_cons, h]
      · by_cases h : b = d
        · subst h
          simp [Memory.read_cons, Ne.symm ‹¬a = b›]
        · simp [Memory.read_cons, h, ih]

theorem Memory.read_forget (m : Memory) (a b : Nat) :
    (Memory.forget m a).read b = if b = a then resetByte b else m.read b := by
  induction m with
  | nil => simp [Memory.forget]
  | cons c rest ih =>
    obtain ⟨d, w⟩ := c
    simp only [Memory.forget] at ih ⊢
    by_cases hd : d = a
    · subst hd
      by_cases h : b = d <;> simp_all [Memory.read_cons]
    · by_cases h : b = d
      · subst h
        simp [Memory.read_cons, hd]
      · simp [hd, Memory.read_cons, h, ih]

/-- A byte reads as last written; every other byte is unchanged. -/
@[simp] theorem Memory.read_write (m : Memory) (a : Nat) (v : Byte) (b : Nat) :
    (Memory.write m a v).read b = if b = a then v else m.read b := by
  simp only [Memory.write]
  split
  · by_cases h : b = a <;> simp_all [Memory.read_forget]
  · exact Memory.read_put m a v b

/-- Placed bytes read back; every other byte is unchanged. -/
theorem Memory.read_place (m : Memory) (a : Nat) (bytes : List Byte) (b : Nat) :
    (Memory.place m a bytes).read b =
      if a ≤ b ∧ b < a + bytes.length then bytes[b - a]?.getD 0 else m.read b := by
  induction bytes generalizing m a with
  | nil =>
    rw [if_neg (by simp only [List.length_nil]; omega)]
    rfl
  | cons v rest ih =>
    simp only [Memory.place, ih, Memory.read_write, List.length_cons]
    by_cases hab : b = a
    · subst hab
      have h1 : ¬(b + 1 ≤ b) := by omega
      simp [h1]
    · by_cases hin : a + 1 ≤ b ∧ b < a + 1 + rest.length
      · have h2 : a ≤ b ∧ b < a + (rest.length + 1) := by omega
        obtain ⟨k, hk⟩ : ∃ k, b - a = k + 1 := ⟨b - a - 1, by omega⟩
        have h3 : b - (a + 1) = k := by omega
        simp [hin, h2, hk, h3]
      · have h2 : ¬(a ≤ b ∧ b < a + (rest.length + 1)) := by omega
        rw [if_neg hin, if_neg h2, if_neg hab]

/-! ### The canonical form is kept -/

theorem Memory.wf_iff (m : Memory) : m.wf = true ↔
    m.Pairwise (fun c d => c.1 < d.1) ∧ ∀ c ∈ m, c.1 < Config.memSize ∧ c.2 ≠ resetByte c.1 := by
  simp [Memory.wf]

theorem Memory.wf_nil : Memory.wf [] = true := by simp [Memory.wf]

theorem Memory.mem_put {m : Memory} {a : Nat} {v : Byte} {c : Host.Cell} (h : c ∈ Memory.put m a v) :
    c = (a, v) ∨ c ∈ m := by
  induction m with
  | nil => simp_all [Memory.put]
  | cons d rest ih =>
    obtain ⟨b, w⟩ := d
    simp only [Memory.put] at h
    split at h
    · simpa using h
    · split at h
      · rcases List.mem_cons.mp h with h | h
        · exact Or.inl h
        · exact Or.inr (List.mem_cons_of_mem _ h)
      · rcases List.mem_cons.mp h with h | h
        · exact Or.inr (h ▸ List.mem_cons_self)
        · rcases ih h with h | h
          · exact Or.inl h
          · exact Or.inr (List.mem_cons_of_mem _ h)

theorem Memory.put_rising {m : Memory} (a : Nat) (v : Byte) (h : m.Pairwise fun c d => c.1 < d.1) :
    (Memory.put m a v).Pairwise fun c d => c.1 < d.1 := by
  induction m with
  | nil => simp [Memory.put]
  | cons c rest ih =>
    obtain ⟨b, w⟩ := c
    obtain ⟨hb, hr⟩ := List.pairwise_cons.mp h
    simp only [Memory.put]
    split
    · next hab =>
      refine List.pairwise_cons.mpr ⟨?_, h⟩
      intro d hd
      rcases List.mem_cons.mp hd with rfl | hd
      · exact hab
      · exact Nat.lt_trans hab (hb d hd)
    · split
      · next hab => exact List.pairwise_cons.mpr ⟨fun d hd => hab ▸ hb d hd, hr⟩
      · next h1 h2 =>
        refine List.pairwise_cons.mpr ⟨?_, ih hr⟩
        intro d hd
        rcases Memory.mem_put hd with rfl | hd
        · show b < a
          omega
        · exact hb d hd

/-- A write inside the address space keeps the canonical form. -/
theorem Memory.write_wf {m : Memory} {a : Nat} (v : Byte) (ha : a < Config.memSize) (h : m.wf = true) :
    (Memory.write m a v).wf = true := by
  rw [Memory.wf_iff] at h ⊢
  simp only [Memory.write]
  split
  · exact ⟨h.1.filter _, fun c hc => h.2 c (List.mem_filter.mp hc).1⟩
  · next hv =>
    refine ⟨Memory.put_rising a v h.1, fun c hc => ?_⟩
    rcases Memory.mem_put hc with rfl | hc
    · exact ⟨ha, hv⟩
    · exact h.2 c hc

/-- Direct stores inside the address space keep the canonical form. -/
theorem Memory.place_wf {m : Memory} {a : Nat} {bytes : List Byte} (ha : a + bytes.length ≤ Config.memSize)
    (h : m.wf = true) : (Memory.place m a bytes).wf = true := by
  induction bytes generalizing m a with
  | nil => exact h
  | cons v rest ih =>
    simp only [List.length_cons] at ha
    exact ih (by omega) (Memory.write_wf v (by omega) h)

/-! ### The memory primitives and the byte sequences -/

@[simp] theorem andThen_next {α β : Type} (a : α) (k : α → Result β) : andThen (.next a) k = k a := rfl

theorem memRead_of_lt {a : Nat} (s : State) (h : a < Config.memSize) : memRead a s = .next (s.mem.read a) := by
  simp [memRead, h]

theorem memWrite_of_lt {a : Nat} (v : Byte) (s : State) (h : a < Config.memSize) :
    memWrite a v s = .next (if storable a then s.setMem (s.mem.write a v) else s) := by
  simp [memWrite, h]

/-- Loads inside the address space answer the bytes in order. -/
theorem loadBytes_of_fits {a count : Nat} (s : State) (h : a + count ≤ Config.memSize) :
    loadBytes a count s = .next ((List.range count).map fun j => s.mem.read (a + j)) := by
  induction count generalizing a with
  | zero => rfl
  | succ n ih =>
    simp only [loadBytes, memRead_of_lt s (show a < Config.memSize by omega), ih (show a + 1 + n ≤ Config.memSize by omega),
      andThen_next, List.range_succ_eq_map, List.map_cons, List.map_map, Nat.add_zero]
    congr 2
    apply List.map_congr_left
    intro j _
    simp only [Function.comp, Nat.succ_eq_add_one]
    congr 1
    omega

/-- Stores inside the address space change memory only, keep its canonical form, and say what every byte reads as. -/
theorem storeBytes_of_fits {a : Nat} {bytes : List Byte} (s : State) (h : a + bytes.length ≤ Config.memSize) :
    ∃ m : Memory, storeBytes a bytes s = .next (s.setMem m) ∧ (s.mem.wf = true → m.wf = true) ∧
      ∀ b : Nat, m.read b =
        if a ≤ b ∧ b < a + bytes.length ∧ storable b = true then bytes[b - a]?.getD 0 else s.mem.read b := by
  induction bytes generalizing a s with
  | nil =>
    refine ⟨s.mem, rfl, id, fun b => ?_⟩
    rw [if_neg]
    simp only [List.length_nil]
    omega
  | cons v rest ih =>
    simp only [List.length_cons] at h
    have ha : a < Config.memSize := by omega
    obtain ⟨m1, hm1, hwf1, hread1⟩ : ∃ m1 : Memory, memWrite a v s = .next (s.setMem m1) ∧ (s.mem.wf = true → m1.wf = true) ∧
        ∀ b : Nat, m1.read b = if b = a ∧ storable b = true then v else s.mem.read b := by
      rw [memWrite_of_lt v s ha]
      by_cases hs : storable a = true
      · refine ⟨s.mem.write a v, by simp [hs], Memory.write_wf v ha, fun b => ?_⟩
        by_cases hb : b = a <;> simp [hb, hs]
      · refine ⟨s.mem, by simp [hs]; rfl, id, fun b => ?_⟩
        by_cases hb : b = a <;> simp [hb, hs]
    obtain ⟨m, hm, hwf, hread⟩ := ih (s.setMem m1) (show a + 1 + rest.length ≤ Config.memSize by omega)
    refine ⟨m, ?_, fun w => hwf (hwf1 w), fun b => ?_⟩
    · simp only [storeBytes, hm1, andThen_next, hm]
      rfl
    · rw [hread b, State.setMem_mem, hread1 b, List.length_cons]
      by_cases hab : b = a
      · subst hab
        have h1 : ¬(b + 1 ≤ b) := by omega
        by_cases hs : storable b = true <;> simp [h1, hs]
      · by_cases hin : a + 1 ≤ b ∧ b < a + 1 + rest.length ∧ storable b = true
        · obtain ⟨k, hk⟩ : ∃ k, b - a = k + 1 := ⟨b - a - 1, by omega⟩
          have h2 : a ≤ b ∧ b < a + (rest.length + 1) ∧ storable b = true := by
            refine ⟨by omega, by omega, hin.2.2⟩
          have h3 : b - (a + 1) = k := by omega
          rw [if_pos hin, if_pos h2, hk, h3, List.getElem?_cons_succ]
        · have h2 : ¬(a ≤ b ∧ b < a + (rest.length + 1) ∧ storable b = true) := by
            rintro ⟨h3, h4, h5⟩
            exact hin ⟨by omega, by omega, h5⟩
          rw [if_neg hin, if_neg h2, if_neg]
          rintro ⟨h3, -⟩
          exact hab h3

/-- The fetch below the last byte of memory answers the word there. -/
theorem fetchWord_of_fits (s : State) (h : s.pc.toNat + 1 < Config.memSize) :
    fetchWord s = .next (wordOfBytes (s.mem.read s.pc.toNat) (s.mem.read (s.pc.toNat + 1))) := by
  simp [fetchWord, memRead_of_lt s h, memRead_of_lt s (show s.pc.toNat < Config.memSize by omega)]

end Sys2Proof.Machine
end

