-- ==== Sys2Proof/Laws/Display.lean ====
section
/-!
SUPPORT. What the display operations and the block register operations do, one lemma each.
-/
namespace Sys2Proof.Machine

/-! ### Pixels -/

theorem Display.pixel_of_in {d : Display} {r c : Nat} (hr : r < 32) (hc : c < 64) :
    d.pixel r c = (d[r]'hr)[c]'hc := by
  simp [Display.pixel, hr, hc]

theorem Display.pixel_of_out {d : Display} {r c : Nat} (h : ¬(r < 32 ∧ c < 64)) : d.pixel r c = false := by
  simp [Display.pixel, h]

@[simp] theorem Display.pixel_blank (r c : Nat) : Display.blank.pixel r c = false := by
  by_cases h : r < 32 ∧ c < 64
  · rw [Display.pixel_of_in h.1 h.2]
    simp [Display.blank]
  · exact Display.pixel_of_out h

/-- A toggle inverts its own pixel and leaves every other one. -/
theorem Display.pixel_toggle (d : Display) (r c r' c' : Nat) :
    (d.toggle r c).pixel r' c' =
      if r' = r ∧ c' = c ∧ r < 32 ∧ c < 64 then !d.pixel r c else d.pixel r' c' := by
  by_cases h : r < 32 ∧ c < 64
  · by_cases h' : r' < 32 ∧ c' < 64
    · rw [Display.pixel_of_in h.1 h.2, Display.pixel_of_in h'.1 h'.2, Display.pixel_of_in h'.1 h'.2]
      simp only [Display.toggle, h, and_self, dite_true, Vector.getElem_set]
      by_cases hr : r = r'
      · subst hr
        by_cases hc : c = c'
        · subst hc
          simp
        · simp [hc, Ne.symm hc]
      · simp [hr, Ne.symm hr]
    · rw [Display.pixel_of_out h', Display.pixel_of_out h', if_neg]
      rintro ⟨rfl, rfl, -⟩
      exact h' h
  · have hd : d.toggle r c = d := by simp [Display.toggle, h]
    rw [hd, if_neg]
    rintro ⟨-, -, h1⟩
    exact h h1

/-- Displays with the same pixels are the same display. -/
theorem Display.ext_pixel {d e : Display} (h : ∀ r c : Nat, d.pixel r c = e.pixel r c) : d = e := by
  apply Vector.ext
  intro r hr
  apply Vector.ext
  intro c hc
  have := h r c
  rwa [Display.pixel_of_in hr hc, Display.pixel_of_in hr hc] at this

/-! ### Drawing one row -/

/-- Whether the sprite byte `b`, drawn at row `r` from column `cx`, has a 1 bit at column `c` of the grid. -/
def rowCovers (cx : Nat) (b : Byte) (c : Nat) : Bool :=
  decide (cx ≤ c ∧ c < cx + 8 ∧ c < 64) && b.getLsbD (7 - (c - cx))

/-- The pixel of one sprite bit, and whether it was a collision. -/
theorem drawBit_spec (r cx : Nat) (b : Byte) (p : Canvas) (j : Nat) (hr : r < 32) :
    (∀ r' c' : Nat, (drawBit r cx b p j).disp.pixel r' c' =
      (p.disp.pixel r' c' ^^ (decide (r' = r ∧ c' = cx + j ∧ cx + j < 64) && spriteBit b j))) ∧
    (drawBit r cx b p j).hit = (p.hit || (decide (cx + j < 64) && (spriteBit b j && p.disp.pixel r (cx + j)))) := by
  by_cases hc : cx + j < 64
  · have hc' : ¬(Config.width ≤ cx + j) := by simpa [Config.width] using hc
    cases hb : spriteBit b j with
    | false => simp [drawBit, hb]
    | true =>
      refine ⟨fun r' c' => ?_, by simp [drawBit, hb, hc, hc']⟩
      simp only [drawBit, ge_iff_le, hc', if_false, hb, if_true, Display.pixel_toggle]
      by_cases h : r' = r ∧ c' = cx + j
      · obtain ⟨rfl, rfl⟩ := h
        simp [hr, hc]
      · have h2 : ¬(r' = r ∧ c' = cx + j ∧ r < 32 ∧ cx + j < 64) := fun k => h ⟨k.1, k.2.1⟩
        have h3 : ¬(r' = r ∧ c' = cx + j ∧ cx + j < 64) := fun k => h ⟨k.1, k.2.1⟩
        simp [h2, h3]
  · have hc' : Config.width ≤ cx + j := by simpa [Config.width] using hc
    simp [drawBit, hc', hc]

/-- The first `k` bits of a sprite row. -/
theorem drawBits_spec (r cx : Nat) (b : Byte) (p : Canvas) (hr : r < 32) (k : Nat) (hk : k ≤ 8) :
    (∀ r' c' : Nat, ((List.range k).foldl (drawBit r cx b) p).disp.pixel r' c' =
      (p.disp.pixel r' c' ^^ (decide (r' = r ∧ cx ≤ c' ∧ c' < cx + k ∧ c' < 64) && b.getLsbD (7 - (c' - cx))))) ∧
    (((List.range k).foldl (drawBit r cx b) p).hit = true ↔
      p.hit = true ∨ ∃ c : Nat, cx ≤ c ∧ c < cx + k ∧ c < 64 ∧ b.getLsbD (7 - (c - cx)) = true ∧
        p.disp.pixel r c = true) := by
  induction k with
  | zero =>
    refine ⟨fun r' c' => ?_, ?_⟩
    · have h : ¬(r' = r ∧ cx ≤ c' ∧ c' < cx + 0 ∧ c' < 64) := by omega
      rw [decide_eq_false h]
      simp
    · simp
      intro c _ _
      omega
  | succ k ih =>
    obtain ⟨ih1, ih2⟩ := ih (by omega)
    rw [List.range_succ, List.foldl_append]
    simp only [List.foldl_cons, List.foldl_nil]
    obtain ⟨h1, h2⟩ := drawBit_spec r cx b ((List.range k).foldl (drawBit r cx b) p) k hr
    refine ⟨fun r' c' => ?_, ?_⟩
    · rw [h1, ih1]
      by_cases hc : r' = r ∧ c' = cx + k ∧ cx + k < 64
      · obtain ⟨rfl, rfl, h5⟩ := hc
        have e : cx + k - cx = k := by omega
        simp [h5, spriteBit, e]
      · have h : (r' = r ∧ cx ≤ c' ∧ c' < cx + (k + 1) ∧ c' < 64) ↔ (r' = r ∧ cx ≤ c' ∧ c' < cx + k ∧ c' < 64) := by
          omega
        rw [decide_eq_false hc]
        simp only [h]
        simp
    · have h3 := ih1 r (cx + k)
      rw [decide_eq_false (by omega)] at h3
      simp only [Bool.false_and, Bool.xor_false] at h3
      rw [h2, h3]
      simp only [Bool.or_eq_true, ih2, Bool.and_eq_true, decide_eq_true_eq, spriteBit]
      have e : cx + k - cx = k := by omega
      constructor
      · rintro ((h | ⟨c, h4⟩) | ⟨h4, h5, h6⟩)
        · exact .inl h
        · exact .inr ⟨c, h4.1, by omega, h4.2.2⟩
        · exact .inr ⟨cx + k, by omega, by omega, h4, by rw [e]; exact h5, h6⟩
      · rintro (h | ⟨c, h4, h5, h6, h7, h8⟩)
        · exact .inl (.inl h)
        · by_cases hc : c = cx + k
          · subst hc
            rw [e] at h7
            exact .inr ⟨h6, h7, h8⟩
          · exact .inl (.inr ⟨c, h4, by omega, h6, h7, h8⟩)

/-- One sprite row: the pixels it inverts, and when it collides. -/
theorem drawRow_spec (r cx : Nat) (b : Byte) (p : Canvas) (hr : r < 32) :
    (∀ r' c' : Nat, (drawRow r cx b p).disp.pixel r' c' =
      (p.disp.pixel r' c' ^^ (decide (r' = r) && rowCovers cx b c'))) ∧
    ((drawRow r cx b p).hit = true ↔
      p.hit = true ∨ ∃ c : Nat, rowCovers cx b c = true ∧ p.disp.pixel r c = true) := by
  obtain ⟨g1, g2⟩ := drawBits_spec r cx b p hr 8 (Nat.le_refl 8)
  rw [show List.range 8 = [0, 1, 2, 3, 4, 5, 6, 7] from by decide] at g1 g2
  refine ⟨fun r' c' => ?_, ?_⟩
  · simp only [drawRow]
    rw [g1]
    by_cases h : r' = r <;> simp [h, rowCovers]
  · simp only [drawRow]
    rw [g2]
    simp only [rowCovers, decide_eq_true_eq, Bool.and_eq_true, and_assoc]

/-- A whole sprite inside the grid: the pixels it inverts, and when it collides. -/
theorem drawRows_spec (bytes : List Byte) (r cx : Nat) (p : Canvas) (hr : r + bytes.length ≤ 32) :
    (∀ r' c' : Nat, (drawRows r cx bytes p).disp.pixel r' c' =
      (p.disp.pixel r' c' ^^
        (decide (r ≤ r' ∧ r' < r + bytes.length) && rowCovers cx (bytes[r' - r]?.getD 0) c'))) ∧
    ((drawRows r cx bytes p).hit = true ↔
      p.hit = true ∨ ∃ r' c' : Nat, (r ≤ r' ∧ r' < r + bytes.length) ∧
        rowCovers cx (bytes[r' - r]?.getD 0) c' = true ∧ p.disp.pixel r' c' = true) := by
  induction bytes generalizing r p with
  | nil =>
    refine ⟨fun r' c' => ?_, ?_⟩
    · have h : ¬(r ≤ r' ∧ r' < r + 0) := by omega
      simp only [drawRows, List.length_nil, decide_eq_false h]
      simp
    · simp only [drawRows, List.length_nil]
      exact ⟨.inl, fun h => h.elim id fun ⟨r', _, h, _⟩ => absurd h (by omega)⟩
  | cons b rest ih =>
    simp only [List.length_cons] at hr ⊢
    obtain ⟨d1, d2⟩ := drawRow_spec r cx b p (by omega)
    obtain ⟨i1, i2⟩ := ih (r + 1) (drawRow r cx b p) (by omega)
    simp only [drawRows]
    refine ⟨fun r' c' => ?_, ?_⟩
    · rw [i1, d1]
      by_cases h0 : r' = r
      · subst h0
        rw [decide_eq_false (show ¬(r' + 1 ≤ r' ∧ r' < r' + 1 + rest.length) by omega)]
        simp
      · by_cases hin : r + 1 ≤ r' ∧ r' < r + 1 + rest.length
        · rw [decide_eq_true hin, decide_eq_true (show r ≤ r' ∧ r' < r + (rest.length + 1) by omega),
            show r' - r = r' - (r + 1) + 1 by omega]
          simp [h0]
        · rw [decide_eq_false hin, decide_eq_false (show ¬(r ≤ r' ∧ r' < r + (rest.length + 1)) by omega)]
          simp [h0]
    · rw [i2, d2]
      constructor
      · rintro ((h | ⟨c, h1, h2⟩) | ⟨r', c, h1, h2, h3⟩)
        · exact .inl h
        · exact .inr ⟨r, c, by omega, by simpa using h1, h2⟩
        · have h0 : r' ≠ r := by omega
          rw [d1] at h3
          simp only [h0, decide_false, Bool.false_and, Bool.xor_false] at h3
          exact .inr ⟨r', c, by omega, by rw [show r' - r = r' - (r + 1) + 1 by omega]; simpa using h2, h3⟩
      · rintro (h | ⟨r', c, h1, h2, h3⟩)
        · exact .inl (.inl h)
        · by_cases h0 : r' = r
          · subst h0
            exact .inl (.inr ⟨c, by simpa using h2, h3⟩)
          · refine .inr ⟨r', c, by omega, ?_, by rw [d1]; simp [h0, h3]⟩
            rw [show r' - r = r' - (r + 1) + 1 by omega] at h2
            simpa using h2

/-! ### Block register transfers -/

theorem State.setRegsFrom_frame (s : State) (r : Nat) (bytes : List Byte) :
    (s.setRegsFrom r bytes).mem = s.mem ∧ (s.setRegsFrom r bytes).i = s.i ∧ (s.setRegsFrom r bytes).pc = s.pc ∧
    (s.setRegsFrom r bytes).stack = s.stack ∧ (s.setRegsFrom r bytes).dt = s.dt ∧ (s.setRegsFrom r bytes).st = s.st ∧
    (s.setRegsFrom r bytes).disp = s.disp ∧ (s.setRegsFrom r bytes).dirty = s.dirty ∧
    (s.setRegsFrom r bytes).mode = s.mode ∧ (s.setRegsFrom r bytes).key = s.key ∧
    (s.setRegsFrom r bytes).draws = s.draws := by
  induction bytes generalizing s r with
  | nil => simp [State.setRegsFrom]
  | cons b rest ih =>
    simp only [State.setRegsFrom]
    split
    · simpa using ih (s.setReg _ b) (r + 1)
    · exact ih s (r + 1)

/-- Register `q` after a block load from register `r` up. -/
theorem State.setRegsFrom_reg (s : State) (r : Nat) (bytes : List Byte) (q : Reg) :
    (s.setRegsFrom r bytes).reg q =
      if r ≤ q.val ∧ q.val < r + bytes.length then bytes[q.val - r]?.getD 0 else s.reg q := by
  induction bytes generalizing s r with
  | nil =>
    rw [if_neg (by simp only [List.length_nil]; omega)]
    rfl
  | cons b rest ih =>
    simp only [State.setRegsFrom, ih, List.length_cons]
    by_cases hq : q.val = r
    · have hr : r < 16 := hq ▸ q.isLt
      have hqr : q = ⟨r, hr⟩ := Fin.ext hq
      simp [hr, hqr]
    · have hne : (if h : r < 16 then s.setReg ⟨r, h⟩ b else s).reg q = s.reg q := by
        split
        · simp [Fin.ext_iff, hq]
        · rfl
      rw [hne]
      by_cases hin : r + 1 ≤ q.val ∧ q.val < r + 1 + rest.length
      · obtain ⟨k, hk⟩ : ∃ k, q.val - r = k + 1 := ⟨q.val - r - 1, by omega⟩
        have h2 : r ≤ q.val ∧ q.val < r + (rest.length + 1) := by omega
        have h3 : q.val - (r + 1) = k := by omega
        rw [if_pos hin, if_pos h2, hk, h3, List.getElem?_cons_succ]
      · have h2 : ¬(r ≤ q.val ∧ q.val < r + (rest.length + 1)) := by omega
        rw [if_neg hin, if_neg h2]

@[simp] theorem State.regsUpTo_length (s : State) (x : Reg) : (s.regsUpTo x).length = x.val + 1 := by
  simp only [State.regsUpTo, List.length_take, Vector.length_toList]
  omega

/-- The `q`-th byte of a block store is `V[q]`. -/
theorem State.regsUpTo_getElem? (s : State) (x q : Reg) (h : q ≤ x) : (s.regsUpTo x)[q.val]? = some (s.reg q) := by
  have hq : q.val < x.val + 1 := Nat.lt_succ_of_le h
  simp only [State.regsUpTo, List.getElem?_take, hq, if_true, State.reg]
  simp

end Sys2Proof.Machine
end

