-- ==== Sys2Proof/Laws/Encoding.lean ====
section
/-!
SUPPORT. The word formats of 30_encoding.md R56 and their fields as arithmetic, and what each mask of the opcode table
tests.
-/
namespace Sys2Proof

/-! ### The number of a word of each format -/

theorem wordNnn_toNat {c : Nat} (hc : c < 16) (nnn : Addr) : (wordNnn c nnn).toNat = c * 4096 + nnn.toNat := by
  have := nnn.isLt
  simp only [wordNnn, BitVec.toNat_ofNat]
  omega

theorem wordXkk_toNat {c : Nat} (hc : c < 16) (x : Reg) (kk : Byte) :
    (wordXkk c x kk).toNat = c * 4096 + x.val * 256 + kk.toNat := by
  have := kk.isLt
  have := x.isLt
  simp only [wordXkk, BitVec.toNat_ofNat]
  omega

theorem wordXyn_toNat {c : Nat} (hc : c < 16) (x y : Reg) (n : RowCount) :
    (wordXyn c x y n).toNat = c * 4096 + x.val * 256 + y.val * 16 + n.val := by
  have := x.isLt
  have := y.isLt
  have := n.isLt
  simp only [wordXyn, BitVec.toNat_ofNat]
  omega

/-! ### The fields of a word of each format -/

theorem fieldClass_wordNnn {c : Nat} (hc : c < 16) (nnn : Addr) : fieldClass (wordNnn c nnn) = c := by
  have := nnn.isLt
  simp only [fieldClass, wordNnn_toNat hc]
  omega

theorem fieldNnn_wordNnn {c : Nat} (hc : c < 16) (nnn : Addr) : fieldNnn (wordNnn c nnn) = nnn := by
  have := nnn.isLt
  apply BitVec.eq_of_toNat_eq
  simp only [fieldNnn, wordNnn_toNat hc, BitVec.toNat_ofNat]
  omega

theorem fieldClass_wordXkk {c : Nat} (hc : c < 16) (x : Reg) (kk : Byte) : fieldClass (wordXkk c x kk) = c := by
  have := kk.isLt
  have := x.isLt
  simp only [fieldClass, wordXkk_toNat hc]
  omega

theorem fieldX_wordXkk {c : Nat} (hc : c < 16) (x : Reg) (kk : Byte) : fieldX (wordXkk c x kk) = x := by
  have := kk.isLt
  have := x.isLt
  apply Fin.ext
  simp only [fieldX, wordXkk_toNat hc]
  omega

theorem fieldKk_wordXkk {c : Nat} (hc : c < 16) (x : Reg) (kk : Byte) : fieldKk (wordXkk c x kk) = kk := by
  have := kk.isLt
  apply BitVec.eq_of_toNat_eq
  simp only [fieldKk, wordXkk_toNat hc, BitVec.toNat_ofNat]
  omega

theorem fieldClass_wordXyn {c : Nat} (hc : c < 16) (x y : Reg) (n : RowCount) :
    fieldClass (wordXyn c x y n) = c := by
  have := x.isLt
  have := y.isLt
  have := n.isLt
  simp only [fieldClass, wordXyn_toNat hc]
  omega

theorem fieldX_wordXyn {c : Nat} (hc : c < 16) (x y : Reg) (n : RowCount) : fieldX (wordXyn c x y n) = x := by
  have := x.isLt
  have := y.isLt
  have := n.isLt
  apply Fin.ext
  simp only [fieldX, wordXyn_toNat hc]
  omega

theorem fieldY_wordXyn {c : Nat} (hc : c < 16) (x y : Reg) (n : RowCount) : fieldY (wordXyn c x y n) = y := by
  have := x.isLt
  have := y.isLt
  have := n.isLt
  apply Fin.ext
  simp only [fieldY, wordXyn_toNat hc]
  omega

theorem fieldN_wordXyn {c : Nat} (hc : c < 16) (x y : Reg) (n : RowCount) : fieldN (wordXyn c x y n) = n := by
  have := x.isLt
  have := y.isLt
  have := n.isLt
  apply Fin.ext
  simp only [fieldN, wordXyn_toNat hc]
  omega

/-! ### Words and bytes -/

/-- The two bytes of a word, in memory order, make the word again (20_memory.md R39). -/
@[simp] theorem wordOfBytes_high_low (w : Word) : wordOfBytes (highByte w) (lowByte w) = w := by
  have := w.isLt
  apply BitVec.eq_of_toNat_eq
  simp only [wordOfBytes, highByte, lowByte, BitVec.toNat_ofNat]
  omega

theorem wordOfBytes_toNat (hi lo : Byte) : (wordOfBytes hi lo).toNat = hi.toNat * 256 + lo.toNat := by
  have := hi.isLt
  have := lo.isLt
  simp only [wordOfBytes, BitVec.toNat_ofNat]
  omega

/-! ### The masks of the opcode table -/

/-- `and` works on the two halves of a number separately. -/
theorem and_two_halves {k a b c d : Nat} (hb : b < 2 ^ k) (hd : d < 2 ^ k) :
    (2 ^ k * a + b) &&& (2 ^ k * c + d) = 2 ^ k * (a &&& c) + (b &&& d) := by
  apply Nat.eq_of_testBit_eq
  intro j
  rw [Nat.testBit_and, Nat.testBit_two_pow_mul_add a hb, Nat.testBit_two_pow_mul_add c hd,
    Nat.testBit_two_pow_mul_add (a &&& c) (Nat.lt_of_le_of_lt Nat.and_le_left hb)]
  split <;> simp

theorem and_class (n low mask : Nat) (hn : n < 65536) (hlow : low < 4096) (hmask : mask = 15 * 4096 + low) :
    n &&& mask = n / 4096 * 4096 + (n % 4096 &&& low) := by
  have h1 : n = 2 ^ 12 * (n / 4096) + n % 4096 := by omega
  have h2 : mask = 2 ^ 12 * 15 + low := by omega
  have h3 : n / 4096 &&& 15 = n / 4096 := by
    have := Nat.and_two_pow_sub_one_eq_mod (n / 4096) 4
    simp only [Nat.reducePow, Nat.reduceSub] at this
    rw [this]
    omega
  conv_lhs => rw [h1, h2]
  rw [and_two_halves (by omega) (by omega), h3]
  omega

/-- The mask of a class decoded by its high nibble alone. -/
theorem covers_class (p w : Word) : (TableRow.mk p 0xF000).covers w = true ↔ w.toNat / 4096 * 4096 = p.toNat := by
  have h := and_class w.toNat 0 0xF000 w.isLt (by decide) rfl
  simp only [TableRow.covers, beq_iff_eq, ← BitVec.toNat_inj, BitVec.toNat_and]
  rw [show (0xF000 : Word).toNat = 0xF000 from rfl, h, Nat.and_zero, Nat.add_zero]

/-- The mask of a class split by its low nibble. -/
theorem covers_class_nibble (p w : Word) :
    (TableRow.mk p 0xF00F).covers w = true ↔ w.toNat / 4096 * 4096 + w.toNat % 16 = p.toNat := by
  have h := and_class w.toNat 15 0xF00F w.isLt (by decide) rfl
  have h2 := Nat.and_two_pow_sub_one_eq_mod (w.toNat % 4096) 4
  simp only [Nat.reducePow, Nat.reduceSub] at h2
  simp only [TableRow.covers, beq_iff_eq, ← BitVec.toNat_inj, BitVec.toNat_and]
  rw [show (0xF00F : Word).toNat = 0xF00F from rfl, h, h2, show w.toNat % 4096 % 16 = w.toNat % 16 by omega]

/-- The mask of a class split by its low byte. -/
theorem covers_class_byte (p w : Word) :
    (TableRow.mk p 0xF0FF).covers w = true ↔ w.toNat / 4096 * 4096 + w.toNat % 256 = p.toNat := by
  have h := and_class w.toNat 255 0xF0FF w.isLt (by decide) rfl
  have h2 := Nat.and_two_pow_sub_one_eq_mod (w.toNat % 4096) 8
  simp only [Nat.reducePow, Nat.reduceSub] at h2
  simp only [TableRow.covers, beq_iff_eq, ← BitVec.toNat_inj, BitVec.toNat_and]
  rw [show (0xF0FF : Word).toNat = 0xF0FF from rfl, h, h2, show w.toNat % 4096 % 256 = w.toNat % 256 by omega]

/-- The mask of a word decoded by exact match. -/
theorem covers_exact (p w : Word) : (TableRow.mk p 0xFFFF).covers w = true ↔ w = p := by
  have h : w &&& 0xFFFF = w := BitVec.and_allOnes
  simp only [TableRow.covers, beq_iff_eq, h]

end Sys2Proof
end

