-- ==== Sys2Proof/Laws/PerInstr.lean ====
section
/-!
SUPPORT. The family of per-instruction statements: the word an instruction encodes to belongs to that instruction's row of
the opcode table, one lemma per constructor.
-/
namespace Sys2Proof.Laws.EncodeFitsTable

/-- The row of spec/opcode_table.json an instruction stands for. -/
def rowOf : Instr → TableRow
  | .cls => ⟨0x00E0, 0xFFFF⟩
  | .ret => ⟨0x00EE, 0xFFFF⟩
  | .jp _ => ⟨0x1000, 0xF000⟩
  | .call _ => ⟨0x2000, 0xF000⟩
  | .seImm _ _ => ⟨0x3000, 0xF000⟩
  | .sneImm _ _ => ⟨0x4000, 0xF000⟩
  | .seReg _ _ => ⟨0x5000, 0xF00F⟩
  | .ldImm _ _ => ⟨0x6000, 0xF000⟩
  | .addImm _ _ => ⟨0x7000, 0xF000⟩
  | .ldReg _ _ => ⟨0x8000, 0xF00F⟩
  | .orReg _ _ => ⟨0x8001, 0xF00F⟩
  | .andReg _ _ => ⟨0x8002, 0xF00F⟩
  | .xorReg _ _ => ⟨0x8003, 0xF00F⟩
  | .addReg _ _ => ⟨0x8004, 0xF00F⟩
  | .sub _ _ => ⟨0x8005, 0xF00F⟩
  | .shr _ _ => ⟨0x8006, 0xF00F⟩
  | .subn _ _ => ⟨0x8007, 0xF00F⟩
  | .shl _ _ => ⟨0x800E, 0xF00F⟩
  | .sneReg _ _ => ⟨0x9000, 0xF00F⟩
  | .ldI _ => ⟨0xA000, 0xF000⟩
  | .jpV0 _ => ⟨0xB000, 0xF000⟩
  | .rnd _ _ => ⟨0xC000, 0xF000⟩
  | .drw _ _ _ => ⟨0xD000, 0xF000⟩
  | .skp _ => ⟨0xE09E, 0xF0FF⟩
  | .sknp _ => ⟨0xE0A1, 0xF0FF⟩
  | .ldVxDt _ => ⟨0xF007, 0xF0FF⟩
  | .ldVxK _ => ⟨0xF00A, 0xF0FF⟩
  | .ldDtVx _ => ⟨0xF015, 0xF0FF⟩
  | .ldStVx _ => ⟨0xF018, 0xF0FF⟩
  | .addIVx _ => ⟨0xF01E, 0xF0FF⟩
  | .ldFVx _ => ⟨0xF029, 0xF0FF⟩
  | .ldBVx _ => ⟨0xF033, 0xF0FF⟩
  | .ldMemVx _ => ⟨0xF055, 0xF0FF⟩
  | .ldVxMem _ => ⟨0xF065, 0xF0FF⟩
  | .unknown _ => ⟨0x0000, 0x0000⟩

/-- The instruction's word has its row's fixed bits. -/
def Statement (i : Instr) : Prop := (rowOf i).covers (encode i) = true

theorem cls : Statement .cls := (covers_exact _ _).mpr rfl

theorem ret : Statement .ret := (covers_exact _ _).mpr rfl

theorem jp (nnn : Addr) : Statement (.jp nnn) := by
  refine (covers_class _ _).mpr ?_
  have := nnn.isLt
  rw [show encode (.jp nnn) = wordNnn 0x1 nnn from rfl, wordNnn_toNat (by decide)]
  rw [show (0x1000 : Word).toNat = 0x1000 from rfl]
  omega

theorem call (nnn : Addr) : Statement (.call nnn) := by
  refine (covers_class _ _).mpr ?_
  have := nnn.isLt
  rw [show encode (.call nnn) = wordNnn 0x2 nnn from rfl, wordNnn_toNat (by decide)]
  rw [show (0x2000 : Word).toNat = 0x2000 from rfl]
  omega

theorem seImm (x : Reg) (kk : Byte) : Statement (.seImm x kk) := by
  refine (covers_class _ _).mpr ?_
  have := x.isLt
  have := kk.isLt
  rw [show encode (.seImm x kk) = wordXkk 0x3 x kk from rfl, wordXkk_toNat (by decide)]
  rw [show (0x3000 : Word).toNat = 0x3000 from rfl]
  omega

theorem sneImm (x : Reg) (kk : Byte) : Statement (.sneImm x kk) := by
  refine (covers_class _ _).mpr ?_
  have := x.isLt
  have := kk.isLt
  rw [show encode (.sneImm x kk) = wordXkk 0x4 x kk from rfl, wordXkk_toNat (by decide)]
  rw [show (0x4000 : Word).toNat = 0x4000 from rfl]
  omega

theorem seReg (x : Reg) (y : Reg) : Statement (.seReg x y) := by
  refine (covers_class_nibble _ _).mpr ?_
  have := x.isLt
  have := y.isLt
  rw [show encode (.seReg x y) = wordXyn 0x5 x y 0x0 from rfl, wordXyn_toNat (by decide)]
  rw [show (0x0 : RowCount).val = 0x0 from rfl]
  rw [show (0x5000 : Word).toNat = 0x5000 from rfl]
  omega

theorem ldImm (x : Reg) (kk : Byte) : Statement (.ldImm x kk) := by
  refine (covers_class _ _).mpr ?_
  have := x.isLt
  have := kk.isLt
  rw [show encode (.ldImm x kk) = wordXkk 0x6 x kk from rfl, wordXkk_toNat (by decide)]
  rw [show (0x6000 : Word).toNat = 0x6000 from rfl]
  omega

theorem addImm (x : Reg) (kk : Byte) : Statement (.addImm x kk) := by
  refine (covers_class _ _).mpr ?_
  have := x.isLt
  have := kk.isLt
  rw [show encode (.addImm x kk) = wordXkk 0x7 x kk from rfl, wordXkk_toNat (by decide)]
  rw [show (0x7000 : Word).toNat = 0x7000 from rfl]
  omega

theorem ldReg (x : Reg) (y : Reg) : Statement (.ldReg x y) := by
  refine (covers_class_nibble _ _).mpr ?_
  have := x.isLt
  have := y.isLt
  rw [show encode (.ldReg x y) = wordXyn 0x8 x y 0x0 from rfl, wordXyn_toNat (by decide)]
  rw [show (0x0 : RowCount).val = 0x0 from rfl]
  rw [show (0x8000 : Word).toNat = 0x8000 from rfl]
  omega

theorem orReg (x : Reg) (y : Reg) : Statement (.orReg x y) := by
  refine (covers_class_nibble _ _).mpr ?_
  have := x.isLt
  have := y.isLt
  rw [show encode (.orReg x y) = wordXyn 0x8 x y 0x1 from rfl, wordXyn_toNat (by decide)]
  rw [show (0x1 : RowCount).val = 0x1 from rfl]
  rw [show (0x8001 : Word).toNat = 0x8001 from rfl]
  omega

theorem andReg (x : Reg) (y : Reg) : Statement (.andReg x y) := by
  refine (covers_class_nibble _ _).mpr ?_
  have := x.isLt
  have := y.isLt
  rw [show encode (.andReg x y) = wordXyn 0x8 x y 0x2 from rfl, wordXyn_toNat (by decide)]
  rw [show (0x2 : RowCount).val = 0x2 from rfl]
  rw [show (0x8002 : Word).toNat = 0x8002 from rfl]
  omega

theorem xorReg (x : Reg) (y : Reg) : Statement (.xorReg x y) := by
  refine (covers_class_nibble _ _).mpr ?_
  have := x.isLt
  have := y.isLt
  rw [show encode (.xorReg x y) = wordXyn 0x8 x y 0x3 from rfl, wordXyn_toNat (by decide)]
  rw [show (0x3 : RowCount).val = 0x3 from rfl]
  rw [show (0x8003 : Word).toNat = 0x8003 from rfl]
  omega

theorem addReg (x : Reg) (y : Reg) : Statement (.addReg x y) := by
  refine (covers_class_nibble _ _).mpr ?_
  have := x.isLt
  have := y.isLt
  rw [show encode (.addReg x y) = wordXyn 0x8 x y 0x4 from rfl, wordXyn_toNat (by decide)]
  rw [show (0x4 : RowCount).val = 0x4 from rfl]
  rw [show (0x8004 : Word).toNat = 0x8004 from rfl]
  omega

theorem sub (x : Reg) (y : Reg) : Statement (.sub x y) := by
  refine (covers_class_nibble _ _).mpr ?_
  have := x.isLt
  have := y.isLt
  rw [show encode (.sub x y) = wordXyn 0x8 x y 0x5 from rfl, wordXyn_toNat (by decide)]
  rw [show (0x5 : RowCount).val = 0x5 from rfl]
  rw [show (0x8005 : Word).toNat = 0x8005 from rfl]
  omega

theorem shr (x : Reg) (y : Reg) : Statement (.shr x y) := by
  refine (covers_class_nibble _ _).mpr ?_
  have := x.isLt
  have := y.isLt
  rw [show encode (.shr x y) = wordXyn 0x8 x y 0x6 from rfl, wordXyn_toNat (by decide)]
  rw [show (0x6 : RowCount).val = 0x6 from rfl]
  rw [show (0x8006 : Word).toNat = 0x8006 from rfl]
  omega

theorem subn (x : Reg) (y : Reg) : Statement (.subn x y) := by
  refine (covers_class_nibble _ _).mpr ?_
  have := x.isLt
  have := y.isLt
  rw [show encode (.subn x y) = wordXyn 0x8 x y 0x7 from rfl, wordXyn_toNat (by decide)]
  rw [show (0x7 : RowCount).val = 0x7 from rfl]
  rw [show (0x8007 : Word).toNat = 0x8007 from rfl]
  omega

theorem shl (x : Reg) (y : Reg) : Statement (.shl x y) := by
  refine (covers_class_nibble _ _).mpr ?_
  have := x.isLt
  have := y.isLt
  rw [show encode (.shl x y) = wordXyn 0x8 x y 0xE from rfl, wordXyn_toNat (by decide)]
  rw [show (0xE : RowCount).val = 0xE from rfl]
  rw [show (0x800E : Word).toNat = 0x800E from rfl]
  omega

theorem sneReg (x : Reg) (y : Reg) : Statement (.sneReg x y) := by
  refine (covers_class_nibble _ _).mpr ?_
  have := x.isLt
  have := y.isLt
  rw [show encode (.sneReg x y) = wordXyn 0x9 x y 0x0 from rfl, wordXyn_toNat (by decide)]
  rw [show (0x0 : RowCount).val = 0x0 from rfl]
  rw [show (0x9000 : Word).toNat = 0x9000 from rfl]
  omega

theorem ldI (nnn : Addr) : Statement (.ldI nnn) := by
  refine (covers_class _ _).mpr ?_
  have := nnn.isLt
  rw [show encode (.ldI nnn) = wordNnn 0xa nnn from rfl, wordNnn_toNat (by decide)]
  rw [show (0xA000 : Word).toNat = 0xA000 from rfl]
  omega

theorem jpV0 (nnn : Addr) : Statement (.jpV0 nnn) := by
  refine (covers_class _ _).mpr ?_
  have := nnn.isLt
  rw [show encode (.jpV0 nnn) = wordNnn 0xb nnn from rfl, wordNnn_toNat (by decide)]
  rw [show (0xB000 : Word).toNat = 0xB000 from rfl]
  omega

theorem rnd (x : Reg) (kk : Byte) : Statement (.rnd x kk) := by
  refine (covers_class _ _).mpr ?_
  have := x.isLt
  have := kk.isLt
  rw [show encode (.rnd x kk) = wordXkk 0xc x kk from rfl, wordXkk_toNat (by decide)]
  rw [show (0xC000 : Word).toNat = 0xC000 from rfl]
  omega

theorem drw (x : Reg) (y : Reg) (n : RowCount) : Statement (.drw x y n) := by
  refine (covers_class _ _).mpr ?_
  have := x.isLt
  have := y.isLt
  have := n.isLt
  rw [show encode (.drw x y n) = wordXyn 0xd x y n from rfl, wordXyn_toNat (by decide)]
  rw [show (0xD000 : Word).toNat = 0xD000 from rfl]
  omega

theorem skp (x : Reg) : Statement (.skp x) := by
  refine (covers_class_byte _ _).mpr ?_
  have := x.isLt
  rw [show encode (.skp x) = wordXkk 0xe x 0x9E from rfl, wordXkk_toNat (by decide)]
  rw [show (0x9E : Byte).toNat = 0x9E from rfl]
  rw [show (0xE09E : Word).toNat = 0xE09E from rfl]
  omega

theorem sknp (x : Reg) : Statement (.sknp x) := by
  refine (covers_class_byte _ _).mpr ?_
  have := x.isLt
  rw [show encode (.sknp x) = wordXkk 0xe x 0xA1 from rfl, wordXkk_toNat (by decide)]
  rw [show (0xA1 : Byte).toNat = 0xA1 from rfl]
  rw [show (0xE0A1 : Word).toNat = 0xE0A1 from rfl]
  omega

theorem ldVxDt (x : Reg) : Statement (.ldVxDt x) := by
  refine (covers_class_byte _ _).mpr ?_
  have := x.isLt
  rw [show encode (.ldVxDt x) = wordXkk 0xf x 0x07 from rfl, wordXkk_toNat (by decide)]
  rw [show (0x07 : Byte).toNat = 0x07 from rfl]
  rw [show (0xF007 : Word).toNat = 0xF007 from rfl]
  omega

theorem ldVxK (x : Reg) : Statement (.ldVxK x) := by
  refine (covers_class_byte _ _).mpr ?_
  have := x.isLt
  rw [show encode (.ldVxK x) = wordXkk 0xf x 0x0A from rfl, wordXkk_toNat (by decide)]
  rw [show (0x0A : Byte).toNat = 0x0A from rfl]
  rw [show (0xF00A : Word).toNat = 0xF00A from rfl]
  omega

theorem ldDtVx (x : Reg) : Statement (.ldDtVx x) := by
  refine (covers_class_byte _ _).mpr ?_
  have := x.isLt
  rw [show encode (.ldDtVx x) = wordXkk 0xf x 0x15 from rfl, wordXkk_toNat (by decide)]
  rw [show (0x15 : Byte).toNat = 0x15 from rfl]
  rw [show (0xF015 : Word).toNat = 0xF015 from rfl]
  omega

theorem ldStVx (x : Reg) : Statement (.ldStVx x) := by
  refine (covers_class_byte _ _).mpr ?_
  have := x.isLt
  rw [show encode (.ldStVx x) = wordXkk 0xf x 0x18 from rfl, wordXkk_toNat (by decide)]
  rw [show (0x18 : Byte).toNat = 0x18 from rfl]
  rw [show (0xF018 : Word).toNat = 0xF018 from rfl]
  omega

theorem addIVx (x : Reg) : Statement (.addIVx x) := by
  refine (covers_class_byte _ _).mpr ?_
  have := x.isLt
  rw [show encode (.addIVx x) = wordXkk 0xf x 0x1E from rfl, wordXkk_toNat (by decide)]
  rw [show (0x1E : Byte).toNat = 0x1E from rfl]
  rw [show (0xF01E : Word).toNat = 0xF01E from rfl]
  omega

theorem ldFVx (x : Reg) : Statement (.ldFVx x) := by
  refine (covers_class_byte _ _).mpr ?_
  have := x.isLt
  rw [show encode (.ldFVx x) = wordXkk 0xf x 0x29 from rfl, wordXkk_toNat (by decide)]
  rw [show (0x29 : Byte).toNat = 0x29 from rfl]
  rw [show (0xF029 : Word).toNat = 0xF029 from rfl]
  omega

theorem ldBVx (x : Reg) : Statement (.ldBVx x) := by
  refine (covers_class_byte _ _).mpr ?_
  have := x.isLt
  rw [show encode (.ldBVx x) = wordXkk 0xf x 0x33 from rfl, wordXkk_toNat (by decide)]
  rw [show (0x33 : Byte).toNat = 0x33 from rfl]
  rw [show (0xF033 : Word).toNat = 0xF033 from rfl]
  omega

theorem ldMemVx (x : Reg) : Statement (.ldMemVx x) := by
  refine (covers_class_byte _ _).mpr ?_
  have := x.isLt
  rw [show encode (.ldMemVx x) = wordXkk 0xf x 0x55 from rfl, wordXkk_toNat (by decide)]
  rw [show (0x55 : Byte).toNat = 0x55 from rfl]
  rw [show (0xF055 : Word).toNat = 0xF055 from rfl]
  omega

theorem ldVxMem (x : Reg) : Statement (.ldVxMem x) := by
  refine (covers_class_byte _ _).mpr ?_
  have := x.isLt
  rw [show encode (.ldVxMem x) = wordXkk 0xf x 0x65 from rfl, wordXkk_toNat (by decide)]
  rw [show (0x65 : Byte).toNat = 0x65 from rfl]
  rw [show (0xF065 : Word).toNat = 0xF065 from rfl]
  omega

theorem unknown (w : Word) : Statement (.unknown w) := by
  simp [Statement, rowOf, TableRow.covers]

end Sys2Proof.Laws.EncodeFitsTable
end

