-- ==== Sys2Proof/Tests/Slice0.lean ====
section
/-!
SUPPORT. The model's own tests. Words are written out bit by bit from the formats of 30_encoding.md R56; expected results
are those of 95_test_vectors.md, whose ids the names carry, or the rule a test cites. The last part shows, for every
statement that has hypotheses, a state and operands that meet them.
-/
namespace Sys2Proof.Tests
open Sys2Proof Sys2Proof.Machine

/-! ### Well-formedness -/

/-- An UNKNOWN that a row of the table recognises is ill-formed: the one check. -/
theorem test_wellFormed_refuses_recognised_unknown :
    (Instr.unknown 0x00E0).wellFormed = false ∧ (Instr.unknown 0x1234).wellFormed = false ∧
    (Instr.unknown 0xF065).wellFormed = false := by decide

theorem test_wellFormed_accepts : (Instr.unknown 0x0000).wellFormed = true ∧ (Instr.jp 0x234).wellFormed = true := by
  decide

/-! ### Decoding and encoding, every constructor, from words written bit by bit -/

theorem test_decode_flow :
    decodeWord 0b0000000011100000 = .cls ∧
    decodeWord 0b0000000011101110 = .ret ∧
    decodeWord 0b0001001000110100 = .jp 0x234 ∧
    decodeWord 0b0010111111111111 = .call 0xFFF ∧
    decodeWord 0b0011010101000010 = .seImm 5 0x42 ∧
    decodeWord 0b0100111110000001 = .sneImm 15 0x81 ∧
    decodeWord 0b0101000100100000 = .seReg 1 2 ∧
    decodeWord 0b1001111001110000 = .sneReg 14 7 ∧
    decodeWord 0b1011001100000001 = .jpV0 0x301 := by decide

theorem test_encode_flow :
    encode (.cls) = 0b0000000011100000 ∧
    encode (.ret) = 0b0000000011101110 ∧
    encode (.jp 0x234) = 0b0001001000110100 ∧
    encode (.call 0xFFF) = 0b0010111111111111 ∧
    encode (.seImm 5 0x42) = 0b0011010101000010 ∧
    encode (.sneImm 15 0x81) = 0b0100111110000001 ∧
    encode (.seReg 1 2) = 0b0101000100100000 ∧
    encode (.sneReg 14 7) = 0b1001111001110000 ∧
    encode (.jpV0 0x301) = 0b1011001100000001 := by decide

theorem test_decode_loads :
    decodeWord 0b0110101011111110 = .ldImm 10 0xFE ∧
    decodeWord 0b0111011100000011 = .addImm 7 3 ∧
    decodeWord 0b1100001100001111 = .rnd 3 0x0F := by decide

theorem test_encode_loads :
    encode (.ldImm 10 0xFE) = 0b0110101011111110 ∧
    encode (.addImm 7 3) = 0b0111011100000011 ∧
    encode (.rnd 3 0x0F) = 0b1100001100001111 := by decide

theorem test_decode_alu :
    decodeWord 0b1000000100110000 = .ldReg 1 3 ∧
    decodeWord 0b1000000100100001 = .orReg 1 2 ∧
    decodeWord 0b1000000100100010 = .andReg 1 2 ∧
    decodeWord 0b1000000100100011 = .xorReg 1 2 ∧
    decodeWord 0b1000111100010100 = .addReg 15 1 ∧
    decodeWord 0b1000000111110101 = .sub 1 15 ∧
    decodeWord 0b1000001101110110 = .shr 3 7 ∧
    decodeWord 0b1000000100100111 = .subn 1 2 ∧
    decodeWord 0b1000010000001110 = .shl 4 0 := by decide

theorem test_encode_alu :
    encode (.ldReg 1 3) = 0b1000000100110000 ∧
    encode (.orReg 1 2) = 0b1000000100100001 ∧
    encode (.andReg 1 2) = 0b1000000100100010 ∧
    encode (.xorReg 1 2) = 0b1000000100100011 ∧
    encode (.addReg 15 1) = 0b1000111100010100 ∧
    encode (.sub 1 15) = 0b1000000111110101 ∧
    encode (.shr 3 7) = 0b1000001101110110 ∧
    encode (.subn 1 2) = 0b1000000100100111 ∧
    encode (.shl 4 0) = 0b1000010000001110 := by decide

theorem test_decode_index :
    decodeWord 0b1010000100100011 = .ldI 0x123 ∧
    decodeWord 0b1111001000011110 = .addIVx 2 ∧
    decodeWord 0b1111010000101001 = .ldFVx 4 ∧
    decodeWord 0b1111001100110011 = .ldBVx 3 ∧
    decodeWord 0b1111111101010101 = .ldMemVx 15 ∧
    decodeWord 0b1111001001100101 = .ldVxMem 2 := by decide

theorem test_encode_index :
    encode (.ldI 0x123) = 0b1010000100100011 ∧
    encode (.addIVx 2) = 0b1111001000011110 ∧
    encode (.ldFVx 4) = 0b1111010000101001 ∧
    encode (.ldBVx 3) = 0b1111001100110011 ∧
    encode (.ldMemVx 15) = 0b1111111101010101 ∧
    encode (.ldVxMem 2) = 0b1111001001100101 := by decide

theorem test_decode_display_keys_timers :
    decodeWord 0b1101000000011111 = .drw 0 1 15 ∧
    decodeWord 0b1110001110011110 = .skp 3 ∧
    decodeWord 0b1110001110100001 = .sknp 3 ∧
    decodeWord 0b1111010100000111 = .ldVxDt 5 ∧
    decodeWord 0b1111010100001010 = .ldVxK 5 ∧
    decodeWord 0b1111000000010101 = .ldDtVx 0 ∧
    decodeWord 0b1111000100011000 = .ldStVx 1 := by decide

theorem test_encode_display_keys_timers :
    encode (.drw 0 1 15) = 0b1101000000011111 ∧
    encode (.skp 3) = 0b1110001110011110 ∧
    encode (.sknp 3) = 0b1110001110100001 ∧
    encode (.ldVxDt 5) = 0b1111010100000111 ∧
    encode (.ldVxK 5) = 0b1111010100001010 ∧
    encode (.ldDtVx 0) = 0b1111000000010101 ∧
    encode (.ldStVx 1) = 0b1111000100011000 := by decide

/-- VC-6: words that no row covers, and the classes 5 and 9 with a low nibble that is not 0. -/
theorem test_decode_unknown_VC6 :
    [0x00E1, 0x0123, 0x5121, 0x8008, 0x800F, 0x912F, 0xE000, 0xE19F, 0xF000, 0xF1FF, 0xFFFF].all
      (fun w => decodeWord w == .unknown w) = true := by decide

/-- The byte order of 20_memory.md R39, and what is left of the stream. -/
theorem test_decode_bytes : decode [0x12, 0x34, 0x56] = .ok (.jp 0x234, [0x56]) := rfl

/-- Fewer than two bytes are no instruction. -/
theorem test_decode_truncated : decode [0x12] = .error .truncated ∧ decode [] = .error .truncated := ⟨rfl, rfl⟩

/-- No two rows of the opcode table cover the same word: their fixed bits differ where both fix them. -/
theorem test_table_rows_disjoint :
    tableRows.Pairwise (fun p q => p.pattern &&& q.mask ≠ q.pattern &&& p.mask) := by decide

/-! ### One step -/

/-- The state after one cycle that fetches `w` in `s`. -/
def after (w : Word) (s : State) : Option State :=
  match step (s.placeWord w) with
  | .next t => some t
  | .fault _ => none
  | .refused _ => none

/-- The state after one host operation. -/
def afterOp (op : HostOp) (s : State) : Option State :=
  match State.apply op s with
  | .next t => some t
  | .fault _ => none
  | .refused _ => none

/-- `s` with one byte of memory. -/
def withByte (a : Nat) (b : Byte) (s : State) : State := s.setMem (s.mem.write a b)

/-- `s` with `I`, and a sprite byte or datum at 0x300. -/
def withDatum (b : Byte) (s : State) : State := (withByte 0x300 b s).setI 0x300

theorem test_fetch_odd_address_VC2 :
    (after 0x6007 (State.reset.setPc 4093)).map (fun t => (t.reg 0, t.pc)) = some (7, 4095) := by decide

theorem test_unknown_VC5 :
    (after 0x0000 State.reset).map (fun t => (t.pc, t.mode, t.reg 0)) = some (0x202, .running, 0) := by decide

/-- VC-3, VC-4: the fetch check. -/
theorem test_fetch_check_VC3_VC4 :
    step (State.reset.setPc 4094) = .next ((State.reset.setPc 4094).setMode (.halted .invalidProgramCounter)) ∧
    step (State.reset.setPc 4095) = .next ((State.reset.setPc 4095).setMode (.halted .invalidProgramCounter)) :=
  ⟨rfl, rfl⟩

/-- VC-3: under the permitted limit 4095 the word in the last two bytes runs. -/
theorem test_fetch_limit_4095_VC3 :
    cycleWith 4095 exec (State.reset.setPc 4094) = .next (State.reset.setPc 4096) := rfl

/-- VC-7, VC-8: no step in Halted and in Blocked. -/
theorem test_idle_VC7_VC8 :
    step (State.reset.setMode (.halted .stackUnderflow)) = .next (State.reset.setMode (.halted .stackUnderflow)) ∧
    cycleResult (State.reset.setMode (.blocked 3)) = .next .noStep := ⟨rfl, rfl⟩

/-- VC-5, VC-9, and the results of VK-8 and S10. -/
theorem test_results :
    cycleResult (State.reset.placeWord 0x0000) = .next (.unknown 0x200 0x0000) ∧
    cycleResult (State.reset.placeWord 0x6A12) = .next (.executed 0x200 0x6A12) ∧
    cycleResult (State.reset.placeWord 0xF50A) = .next (.waitEntered 0x200 0xF50A) ∧
    cycleResult (State.reset.placeWord 0x00EE) = .next (.haltedAt 0x200 (some 0x00EE) .stackUnderflow) :=
  ⟨rfl, rfl, rfl, rfl⟩

theorem test_ret_VJ3 :
    (after 0x00EE ((State.reset.setPc 0x300).setStack [0x202, 0x40A])).map (fun t => (t.pc, t.stack)) = some (0x40A, [0x202]) := by decide

theorem test_ret_VJ4 :
    (after 0x00EE (State.reset.setPc 0x206)).map (fun t => (t.pc, t.mode)) = some (0x208, .halted .stackUnderflow) := by decide

theorem test_jp_VC1 :
    (after 0x1234 State.reset).map (fun t => t.pc) = some 0x234 := by decide

theorem test_jp_VJ6 :
    (after 0x1FFE State.reset).map (fun t => (t.pc, t.mode)) = some (0xFFE, .running) := by decide

theorem test_call_VJ1 :
    (after 0x2300 State.reset).map (fun t => (t.pc, t.stack)) = some (0x300, [0x202]) := by decide

/-- 41_flow.md R79 under a bounded stack. -/
theorem test_call_bounded :
    callWith (some 1) 0x300 (State.reset.setStack [0x202]) =
      .next ((State.reset.setStack [0x202]).setMode (.halted .stackOverflow)) := rfl

theorem test_seImm_VJ7 :
    (after 0x3542 (State.reset.setReg 5 0x42)).map (fun t => t.pc) = some 0x204 := by decide

theorem test_seImm_VJ19 :
    (after 0x3000 (State.reset.setPc 4092)).map (fun t => t.pc) = some 4096 := by decide

theorem test_sneImm_VJ9 :
    (after 0x4542 (State.reset.setReg 5 0x42)).map (fun t => t.pc) = some 0x202 := by decide

theorem test_sneImm_VJ10 :
    (after 0x4500 (State.reset.setReg 5 0x42)).map (fun t => t.pc) = some 0x204 := by decide

theorem test_seReg_VJ11 :
    (after 0x5120 ((State.reset.setReg 1 9).setReg 2 9)).map (fun t => t.pc) = some 0x204 := by decide

theorem test_seReg_VJ12 :
    (after 0x5120 ((State.reset.setReg 1 9).setReg 2 8)).map (fun t => t.pc) = some 0x202 := by decide

theorem test_sneReg_VJ14 :
    (after 0x9120 ((State.reset.setReg 1 9).setReg 2 8)).map (fun t => t.pc) = some 0x204 := by decide

theorem test_sneReg_VJ15 :
    (after 0x9330 State.reset).map (fun t => t.pc) = some 0x202 := by decide

theorem test_jpV0_VJ17 :
    (after 0xBFFF (State.reset.setReg 0 0xFF)).map (fun t => (t.pc, t.mode)) = some (0x10FE, .running) := by decide

theorem test_jpV0_VJ18 :
    (after 0xB300 ((State.reset.setReg 0 2).setReg 3 9)).map (fun t => t.pc) = some 0x302 := by decide

theorem test_ldImm_V6_1 :
    (after 0x6AFF State.reset).map (fun t => (t.reg 10, t.reg regF)) = some (0xFF, 0) := by decide

theorem test_addImm_V7_2 :
    (after 0x7001 (State.reset.setReg 0 0xFF)).map (fun t => (t.reg 0, t.reg regF)) = some (0, 0) := by decide

theorem test_addImm_V7_3 :
    (after 0x7F01 (State.reset.setReg regF 0xFF)).map (fun t => t.reg regF) = some 0 := by decide

theorem test_ldReg_V8_1 :
    (after 0x8130 (State.reset.setReg 3 0x42)).map (fun t => (t.reg 1, t.reg 3)) = some (0x42, 0x42) := by decide

theorem test_orReg_V8_2 :
    (after 0x8121 (((State.reset.setReg 1 0x0F).setReg 2 0xF0).setReg regF 9)).map (fun t => (t.reg 1, t.reg regF)) = some (0xFF, 9) := by decide

theorem test_andReg_V8_3 :
    (after 0x8122 (((State.reset.setReg 1 0x3C).setReg 2 0x0F).setReg regF 9)).map (fun t => (t.reg 1, t.reg regF)) = some (0x0C, 9) := by decide

theorem test_xorReg_V8_4 :
    (after 0x8123 ((State.reset.setReg 1 0x3C).setReg 2 0x0F)).map (fun t => t.reg 1) = some 0x33 := by decide

theorem test_addReg_V8_7 :
    (after 0x8124 ((State.reset.setReg 1 0x80).setReg 2 0x80)).map (fun t => (t.reg 1, t.reg regF)) = some (0, 1) := by decide

theorem test_addReg_V8_9 :
    (after 0x8F14 ((State.reset.setReg regF 0x10).setReg 1 0xF5)).map (fun t => t.reg regF) = some 5 := by decide

theorem test_sub_V8_13 :
    (after 0x8125 ((State.reset.setReg 1 5).setReg 2 5)).map (fun t => (t.reg 1, t.reg regF)) = some (0, 0) := by decide

theorem test_sub_V8_14 :
    (after 0x8F35 ((State.reset.setReg regF 5).setReg 3 3)).map (fun t => t.reg regF) = some 0xFE := by decide

theorem test_shr_V8_17 :
    (after 0x8376 ((State.reset.setReg 3 5).setReg 7 0xAA)).map (fun t => (t.reg 3, t.reg regF)) = some (2, 1) := by decide

theorem test_shr_V8_20 :
    (after 0x8F06 (State.reset.setReg regF 3)).map (fun t => t.reg regF) = some 0 := by decide

theorem test_subn_V8_21 :
    (after 0x8127 ((State.reset.setReg 1 3).setReg 2 5)).map (fun t => (t.reg 1, t.reg regF)) = some (2, 1) := by decide

theorem test_subn_V8_25 :
    (after 0x81F7 ((State.reset.setReg 1 3).setReg regF 5)).map (fun t => (t.reg 1, t.reg regF)) = some (0xFE, 1) := by decide

theorem test_shl_V8_26 :
    (after 0x840E (State.reset.setReg 4 0x81)).map (fun t => (t.reg 4, t.reg regF)) = some (2, 1) := by decide

theorem test_shl_V8_29 :
    (after 0x8F0E (State.reset.setReg regF 0x80)).map (fun t => t.reg regF) = some 2 := by decide

/-- VC8-2: a mask of 0 gives 0 whatever the free value is. -/
theorem test_rnd_VC8_2 : (after 0xC300 State.reset).map (fun t => t.reg 3) = some 0 := by
  have h : after 0xC300 State.reset =
      some (((State.reset.placeWord 0xC300).advance.setReg 3 (Config.randomByte 0 &&& 0)).setDraws 1) := rfl
  rw [h, show Config.randomByte 0 &&& 0 = 0 from BitVec.and_zero]
  rfl

/-- VC8-3: a mask of 0xFF gives the draw itself; and the draw is used up. -/
theorem test_rnd_VC8_3 :
    (after 0xC3FF State.reset).map (fun t => (t.reg 3, t.draws)) = some (Config.randomByte 0, 1) := by
  have h : after 0xC3FF State.reset =
      some (((State.reset.placeWord 0xC3FF).advance.setReg 3 (Config.randomByte 0 &&& 0xFF)).setDraws 1) := rfl
  rw [h, show Config.randomByte 0 &&& 0xFF = Config.randomByte 0 from BitVec.and_allOnes]
  rfl

theorem test_ldI_VA1 :
    (after 0xA123 State.reset).map (fun t => t.i) = some 0x123 := by decide

theorem test_addIVx_VF1E2 :
    (after 0xF11E ((State.reset.setReg 1 1).setI 0xFFF)).map (fun t => (t.i, t.reg regF)) = some (0x1000, 0) := by decide

theorem test_addIVx_VF1E4 :
    (after 0xF11E ((State.reset.setReg 1 2).setI 0xFFFF)).map (fun t => (t.i, t.reg regF)) = some (1, 1) := by decide

/-- VF29-4: no masking to the low nibble, at any font base. -/
theorem test_ldFVx_VF29_4 :
    (after 0xF429 (State.reset.setReg 4 0x12)).map (fun t => t.i) = some (BitVec.ofNat 16 (Config.fontBase + 90)) := rfl

theorem test_ldBVx_VF33_5 :
    (after 0xF333 ((State.reset.setReg 3 42).setI 4093)).map (fun t => (t.mem.read 4093, t.mem.read 4094, t.mem.read 4095, t.mode)) = some (0, 4, 2, .running) := by decide

theorem test_ldBVx_VF33_6 :
    (after 0xF333 ((State.reset.setReg 3 42).setI 4094)).map (fun t => (t.mem.read 4094, t.mode)) = some (0, .halted .invalidMemoryAccess) := by decide

theorem test_ldMemVx_VF55_1 :
    (after 0xF255 (((((State.reset.setReg 0 1).setReg 1 2).setReg 2 3).setReg 3 4).setI 0x300)).map (fun t => (t.mem.read 0x300, t.mem.read 0x302, t.mem.read 0x303, t.i)) = some (1, 3, 0, 0x300) := by decide

theorem test_ldMemVx_VF55_4 :
    (after 0xFF55 ((State.reset.setReg 0 1).setI 0xFF1)).map (fun t => (t.mem.read 0xFF1, t.mode)) = some (0, .halted .invalidMemoryAccess) := by decide

theorem test_ldVxMem_VF65_1 :
    (after 0xF265 (withDatum 1 (withByte 0x302 3 (State.reset.setReg 3 9)))).map (fun t => (t.reg 0, t.reg 2, t.reg 3, t.i)) = some (1, 3, 9, 0x300) := by decide

theorem test_ldVxMem_VF65_3 :
    (after 0xF065 ((State.reset.setReg 0 5).setI 0x1000)).map (fun t => (t.reg 0, t.mode)) = some (5, .halted .invalidMemoryAccess) := by decide

theorem test_cls_VD1 :
    (after 0x00E0 ((State.reset.setDisp (Display.blank.toggle 3 4)).setDirty false)).map (fun t => (t.disp.pixel 3 4, t.dirty)) = some (false, true) := by decide

theorem test_drw_VD4 :
    (after 0xD011 (withDatum 0x80 ((State.reset.setReg 0 0x41).setReg 1 0x25))).map (fun t => (t.disp.pixel 5 1, t.disp.pixel 5 2, t.reg regF)) = some (true, false, 0) := by decide

theorem test_drw_VD5_clips :
    (after 0xD011 (withDatum 0xFF (State.reset.setReg 0 62))).map (fun t => (t.disp.pixel 0 63, t.disp.pixel 0 0)) = some (true, false) := by decide

theorem test_skp_VK1 :
    (after 0xE39E ((State.reset.setReg 3 7).setKey (some 7))).map (fun t => (t.pc, t.key)) = some (0x204, some 7) := by decide

theorem test_skp_VK3 :
    (after 0xE39E ((State.reset.setReg 3 0x17).setKey (some 7))).map (fun t => t.pc) = some 0x202 := by decide

theorem test_sknp_VK4 :
    (after 0xE3A1 ((State.reset.setReg 3 7).setKey (some 7))).map (fun t => t.pc) = some 0x202 := by decide

theorem test_sknp_VK5 :
    (after 0xE3A1 State.reset).map (fun t => t.pc) = some 0x204 := by decide

theorem test_ldVxK_VK7 :
    (after 0xF00A (State.reset.setKey (some 4))).map (fun t => (t.reg 0, t.key, t.mode)) = some (4, none, .running) := by decide

theorem test_ldVxK_VK8 :
    (after 0xF50A State.reset).map (fun t => (t.pc, t.mode, t.reg 5)) = some (0x202, .blocked 5, 0) := by decide

theorem test_ldVxDt_VT1 :
    (after 0xF507 (State.reset.setDt 0x3C)).map (fun t => t.reg 5) = some 0x3C := by decide

theorem test_ldDtVx_VT2 :
    (after 0xF015 (State.reset.setReg 0 5)).map (fun t => t.dt) = some 5 := by decide

theorem test_ldStVx_VT3 :
    (after 0xF118 (State.reset.setReg 1 0x10)).map (fun t => (t.st, t.dt)) = some (0x10, 0) := by decide

/-! ### One host operation -/

/-- VK-9, D14: the press that ends a wait is consumed. -/
theorem test_pressKey_VK9 :
    (afterOp (.pressKey 0xC) (State.reset.setMode (.blocked 5))).map (fun t => (t.reg 5, t.mode, t.key)) =
      some (0x0C, .running, none) := by decide

/-- VK-13. -/
theorem test_pressKey_VK13 : State.apply (.pressKey 16) State.reset = .refused (.keyCodeOutOfRange 16) := rfl

/-- VT-4, VT-5. -/
theorem test_tick_VT4_VT5 :
    (afterOp .tick ((State.reset.setDt 2).setSt 1)).map (fun t => (t.dt, t.st)) = some (1, 0) ∧
    (afterOp .tick State.reset).map (fun t => (t.dt, t.st)) = some (0, 0) := by decide

/-- VT-6: frozen while Blocked. -/
theorem test_tick_VT6 :
    (afterOp .tick ((State.reset.setDt 5).setMode (.blocked 0))).map (fun t => t.dt) = some 5 := by decide

/-- VH-1, VH-2: the first reason is kept. -/
theorem test_halt_VH1_VH2 :
    (afterOp (.halt "user") State.reset).map (fun t => t.mode) = some (.halted (.external "user")) ∧
    (afterOp (.halt "user") (State.reset.setMode (.halted .stackUnderflow))).map (fun t => t.mode) =
      some (.halted .stackUnderflow) := by decide

/-- VH-8: an image of odd length. -/
theorem test_loadProgram_VH8 :
    (afterOp (.loadProgram [0x60]) State.reset).map (fun t => (t.mem.read 0x200, t.mem.read 0x201)) = some (0x60, 0) := by
  decide

/-- 40_cycle_driver.md R76: a listed address, with the instruction there. -/
theorem test_trace_entry :
    traceEntry (State.reset.placeWord 0x00E0).mem 0x200 =
      some { address := 0x200, instr := .cls, text := Config.traceFormat .cls } ∧
    traceEntry (State.reset.placeWord 0x00E0).mem 0x202 = none := ⟨rfl, rfl⟩

/-- The bits of a table row run as the first instruction after reset. -/
theorem test_withFetchWord :
    step (State.reset.withFetchWord 16 0xA123) = .next ((State.reset.placeWord 0xA123).advance.setI 0x123) ∧
    decodeTableWord 16 0xA123 = some (.ldI 0x123) := ⟨rfl, rfl⟩

/-- Whether a table row's bits run to a next state as the first instruction after reset. -/
def rowRuns (w : Nat) : Bool :=
  match step (State.reset.withFetchWord 16 w) with
  | .next _ => true
  | .fault _ => false
  | .refused _ => false

/-- The first word of every row of the opcode table, and D001, F155, F165, which access memory at `I = 0`. -/
theorem test_every_row_runs_low :
    [0x00E0, 0x00EE, 0x1000, 0x2000, 0x3000, 0x4000, 0x5000, 0x6000, 0x7000, 0x8000, 0x8001, 0x8002, 0x8003, 0x8004,
     0x8005, 0x8006, 0x8007, 0x800E].all rowRuns = true := by decide

theorem test_every_row_runs_high :
    [0x9000, 0xA000, 0xB000, 0xC000, 0xD000, 0xD001, 0xE09E, 0xE0A1, 0xF007, 0xF00A, 0xF015, 0xF018, 0xF01E, 0xF029,
     0xF033, 0xF055, 0xF065, 0xF155, 0xF165, 0x0000].all rowRuns = true := by decide

/-! ### Witnesses: for every statement with hypotheses, what meets them all, one for each clause -/

/-- Running at a `pc`, with a word there. -/
def running (pc w : Word) : State := (State.reset.setPc pc).placeWord w

def blocked : State := State.reset.setMode (.blocked 5)

def halted : State := State.reset.setMode (.halted .stackUnderflow)

theorem witness_DecodeEncodeRoundTrip : (Instr.drw 15 0 15).wellFormed = true ∧ (Instr.unknown 0x5121).wellFormed = true := by
  decide

theorem witness_CycleIdleUnlessRunning : blocked.mode ≠ .running ∧ halted.mode ≠ .running := by decide

theorem witness_CycleRejectsProgramCounter :
    (running 4094 0x6007).mode = .running ∧ 4094 ≤ (running 4094 0x6007).pc.toNat := by decide

theorem witness_CycleRunsTheDecodedInstruction :
    (running 4093 0x6007).mode = .running ∧ (running 4093 0x6007).pc.toNat < 4094 := by decide

theorem witness_FetchLimitsDifferOnlyAt4094 :
    (running 4093 0x6007).pc.toNat ≠ 4094 ∧ (running 4095 0x6007).pc.toNat ≠ 4094 ∧
    (running 4094 0x6007).mode = .running ∧ (running 4094 0x6007).pc.toNat = 4094 := by decide

theorem witness_HaltingCycleIsPrecise :
    ∃ t : State, (running 0x200 0x00EE).mode = .running ∧ (running 0x200 0x00EE).pc.toNat < 4094 ∧
      step (running 0x200 0x00EE) = .next t ∧ t.mode = .halted .stackUnderflow :=
  ⟨_, by decide, by decide, rfl, rfl⟩

/-- A cycle that waits, one that underflows, one that runs out of memory, and one that finds `pc` out of range. -/
theorem witness_ModeMovesOnlyAlongTheTable_cycle :
    (after 0xF50A State.reset).map (fun t => t.mode) = some (.blocked 5) ∧
    (after 0x00EE State.reset).map (fun t => t.mode) = some (.halted .stackUnderflow) ∧
    (after 0xF065 (State.reset.setI 4096)).map (fun t => t.mode) = some (.halted .invalidMemoryAccess) ∧
    (after 0x0000 (State.reset.setPc 4095)).map (fun t => t.mode) = some (.halted .invalidProgramCounter) := by decide

/-- The host operations that change the mode. -/
theorem witness_ModeMovesOnlyAlongTheTable_host :
    (afterOp (.pressKey 15) blocked).map (fun t => t.mode) = some .running ∧
    (afterOp (.halt "user") blocked).map (fun t => t.mode) = some (.halted (.external "user")) ∧
    (afterOp .reset halted).map (fun t => t.mode) = some .running ∧
    (afterOp (.loadProgram []) halted).map (fun t => t.mode) = some .running := by decide

theorem witness_CycleResultFollowsTheMode_running :
    ∃ t u : State, step (running 0x200 0x5121) = .next t ∧ t.mode = .running ∧
      decodeWord (running 0x200 0x5121).wordAtPc = .unknown (running 0x200 0x5121).wordAtPc ∧
      step (running 0x200 0x5120) = .next u ∧ u.mode = .running ∧
      decodeWord (running 0x200 0x5120).wordAtPc ≠ .unknown (running 0x200 0x5120).wordAtPc :=
  ⟨_, _, rfl, rfl, rfl, rfl, rfl, by decide⟩

theorem witness_CycleResultFollowsTheMode_stopped :
    ∃ t u : State, step (running 0x200 0xF50A) = .next t ∧ t.mode = .blocked 5 ∧
      step (running 4093 0x00EE) = .next u ∧ u.mode = .halted .stackUnderflow := ⟨_, _, rfl, rfl, rfl, rfl⟩

/-- The first and the last scanned address, each with an entry. -/
theorem witness_TraceListsNonZeroWords :
    (0x200 ≤ 0x200 ∧ 0x200 % 2 = 0 ∧ wordAt (running 0x200 0x00E0).mem 0x200 ≠ 0) ∧
    (0xFFE ≤ 0xFFE ∧ 0xFFE % 2 = 0 ∧ wordAt (running 0xFFE 0x00E0).mem 0xFFE ≠ 0) ∧
    ∃ e : TraceEntry, e ∈ traceListing (running 0x200 0x00E0).mem := by
  refine ⟨by decide, by decide, { address := 0x200, instr := .cls, text := Config.traceFormat .cls }, ?_⟩
  exact List.mem_filterMap.mpr ⟨0x200, List.mem_map.mpr ⟨0, List.mem_range.mpr (by decide), rfl⟩, rfl⟩

theorem witness_Inv_reset : State.reset.Inv :=
  ⟨by decide, by decide, by intro a h; exact absurd h List.not_mem_nil, by intro t h; cases h⟩

theorem witness_CycleKeepsTheInvariant : ∃ t : State, State.reset.Inv ∧ step State.reset = .next t :=
  ⟨State.reset.setPc 0x202, witness_Inv_reset, rfl⟩

/-- The return addresses 0 and 4095. -/
theorem stack_bounds (a : Word) (h : a ∈ ([0, 4095] : List Word)) : a.toNat ≤ 4095 := by
  simp only [List.mem_cons, List.not_mem_nil, or_false] at h
  rcases h with rfl | rfl <;> decide

/-- A machine that waits, and one deep in calls, meet the invariant at its bounds. -/
theorem witness_Inv_bounds :
    ((State.reset.setStack [0, 4095]).setPc 0x10FE).Inv ∧ blocked.Inv := by
  exact ⟨⟨by decide, by decide, stack_bounds, by intro t h; cases h⟩,
    ⟨by decide, by decide, fun a h => absurd h List.not_mem_nil, fun _ _ => rfl⟩⟩

theorem witness_HostOperationsKeepTheInvariant :
    ∃ t : State, State.reset.Inv ∧ State.applyAll [.tick, .pressKey 15, .clearDirty, .reset] State.reset = .next t :=
  ⟨_, witness_Inv_reset, rfl⟩

/-- The skip from 4092, which reaches 4096, and a return to 4095: one for each side of the conclusion. -/
theorem witness_OnlyComputedJumpsAndLastSkipsLeaveMemory :
    ∃ t u : State, (running 4092 0x3000).mode = .running ∧ (∀ a ∈ (running 4092 0x3000).stack, a.toNat ≤ 4095) ∧
      step (running 4092 0x3000) = .next t ∧ t.pc = 4096 ∧
      (∀ nnn : Addr, decodeWord (running 4092 0x3000).wordAtPc ≠ .jpV0 nnn) ∧
      (∀ a ∈ ((running 0x200 0x00EE).setStack [0, 4095]).stack, a.toNat ≤ 4095) ∧
      step ((running 0x200 0x00EE).setStack [0, 4095]) = .next u ∧ u.pc = 4095 := by
  refine ⟨_, _, by decide, fun a h => absurd h List.not_mem_nil, rfl, rfl, ?_, stack_bounds, rfl, rfl⟩
  intro nnn h
  have hw : decodeWord (running 4092 0x3000).wordAtPc = .seImm 0 0 := by decide
  rw [hw] at h
  cases h

theorem witness_InstructionsWriteOnlyTheirOwn : ∃ t : State, exec (.call 0xFFF) State.reset = .next t := ⟨_, rfl⟩

/-- An instruction that writes `ST`, one that writes `DIRTY`, and a draw that halts and writes neither. -/
theorem witness_SoundTimerAndDirtyAreNeverRead :
    ∃ t u w : State, exec (.ldStVx 1) (State.reset.setReg 1 7) = .next t ∧ exec .cls State.reset = .next u ∧
      exec (.drw 0 1 2) (State.reset.setI 4095) = .next w ∧ boundsFail (.drw 0 1 2) (State.reset.setI 4095) = true :=
  ⟨_, _, _, rfl, rfl, rfl, by decide⟩

theorem witness_OnlyKeyInstructionsReadTheLatch :
    ∃ t : State, (Instr.ldVxDt 1).readsKey = false ∧ exec (.ldVxDt 1) State.reset = .next t := ⟨_, rfl, rfl⟩

theorem witness_ReturnPopsOrUnderflows :
    (State.reset.setStack [0x202, 4095]).stack = [0x202] ++ [4095] ∧ State.reset.stack = [] := ⟨rfl, rfl⟩

/-- The third clause: the invariant with a stack that is not empty. -/
theorem witness_ReturnPopsOrUnderflows_bound :
    ((State.reset.setStack [0, 4095]).setPc 0x10FE).Inv ∧
    ((State.reset.setStack [0, 4095]).setPc 0x10FE).stack = [0] ++ [4095] := ⟨witness_Inv_bounds.1, rfl⟩

/-- The first target past the limit, and a jump to itself at the last address that can be fetched. -/
theorem witness_JumpSetsProgramCounter :
    (State.reset.mode = .running ∧ 0xFFE ≤ (0xFFE : Addr).toNat) ∧
    ((running 4093 0x1FFD).mode = .running ∧ (running 4093 0x1FFD).pc.toNat = (0xFFD : Addr).toNat ∧
      (0xFFD : Addr).toNat < 0xFFE ∧ (running 4093 0x1FFD).wordAtPc = wordNnn 1 0xFFD) := by decide

/-- After the fetch at 4092, with an operand that skips and one that does not. -/
theorem witness_ImmediateSkipsCompare :
    (State.reset.setPc 4094).mode = .running ∧ (State.reset.setPc 4094).pc.toNat = 4094 ∧
    ((State.reset.setPc 4094).reg 15).toNat = (0 : Byte).toNat ∧
    ((State.reset.setPc 4094).reg 15).toNat ≠ (1 : Byte).toNat := by decide

theorem witness_CallPushesReturnAddress :
    State.reset.stack.length = 0 ∧ (State.reset.setStack [0x202]).stack.length ≠ 0 ∧
    (State.reset.setStack [0x202]).stack.length ≠ 2 := by decide

theorem witness_ReturnUndoesCall :
    ∃ t u : State, exec (.call 0x300) State.reset = .next t ∧ u = t.setReg 3 9 ∧ u.stack = t.stack :=
  ⟨_, _, rfl, rfl, rfl⟩

theorem witness_RegisterSkipsCompare : (1 : RowCount) ≠ 0 ∧ (15 : RowCount) ≠ 0 := by decide

theorem witness_ComputedJumpAddsV0 :
    ∃ t : State, exec (.jpV0 0xFFF) (State.reset.setReg 0 0xFF) = .next t ∧
      (State.reset.setReg 0 0xFF).mode = .running ∧ Config.pcFetchLimit ≤ t.pc.toNat := ⟨_, rfl, rfl, by decide⟩

theorem witness_UnknownWordIsReportedNoOp :
    (running 4093 0x5121).mode = .running ∧ (running 4093 0x5121).pc.toNat < 4094 ∧
    decodeWord (running 4093 0x5121).wordAtPc = .unknown (running 4093 0x5121).wordAtPc := by decide

/-- The clauses of the flag-setting statements on `x = F` and on `x ≠ F`. -/
theorem witness_flag_operands : (0 : Reg) ≠ regF ∧ (14 : Reg) ≠ regF ∧ (15 : Reg) = regF := by decide

theorem witness_RandomByteIsMasked : (0x00 : Byte) = 0 ∧ (255 : Byte) = 0xFF := by decide

theorem witness_DecimalStoreWritesThreeBytes :
    4096 ≤ (State.reset.setI 4094).i.toNat + 2 ∧ (State.reset.setI 4093).i.toNat + 2 < 4096 := by decide

/-- `x = 15` at the last address where a block fits and at the next, and `x = 0` likewise. -/
theorem witness_block_bounds :
    (State.reset.setI 4080).i.toNat + (15 : Reg).val < 4096 ∧ 4096 ≤ (State.reset.setI 4081).i.toNat + (15 : Reg).val ∧
    (State.reset.setI 4095).i.toNat + (0 : Reg).val < 4096 ∧ 4096 ≤ (State.reset.setI 4096).i.toNat + (0 : Reg).val := by
  decide

theorem witness_BlockStoreWritesRegisters :
    (15 : Reg) ≤ 15 ∧ storable ((State.reset.setI 4080).i.toNat + (15 : Reg).val) = true := by decide

theorem witness_BlockStoreThenLoadRestores :
    ∃ t u : State, (State.reset.setI 4080).i.toNat + (15 : Reg).val < 4096 ∧
      (∀ r : Reg, r ≤ 15 → storable ((State.reset.setI 4080).i.toNat + r.val) = true) ∧
      exec (.ldMemVx 15) (State.reset.setI 4080) = .next t ∧ u = t.setReg 3 9 ∧ u.i = (State.reset.setI 4080).i ∧
      State.agrees .mem t u :=
  ⟨_, _, by decide, by decide, rfl, rfl, rfl, fun _ => rfl⟩

theorem witness_FontRegionFollowsThePolicy : (4095 : Nat) < 4096 ∧ (0 : Nat) < 4096 := by decide

theorem witness_CanonicalMemoryIsUnique :
    Memory.wf [(0x200, 1), (4095, 2)] = true ∧
    ∀ a : Nat, Memory.read [(0x200, 1), (4095, 2)] a = Memory.read [(0x200, 1), (4095, 2)] a :=
  ⟨by decide, fun _ => rfl⟩

/-- The canonical form is not met by everything: out of order, out of range, or a cell that says nothing. -/
theorem test_wf_refuses :
    Memory.wf [(0x201, 1), (0x200, 1)] = false ∧ Memory.wf [(4096, 1)] = false ∧ Memory.wf [(0x200, 0)] = false := by
  decide

/-- Two rows from the last byte halt, and so does any row from 4096; one row, or a second row below the grid, does not. -/
theorem witness_drawHalts :
    drawHalts 1 2 (State.reset.setI 4095) = true ∧ drawHalts 1 1 (State.reset.setI 4096) = true ∧
    drawHalts 1 1 (State.reset.setI 4095) = false ∧ drawHalts 1 0 (State.reset.setI 4096) = false ∧
    drawHalts 1 2 ((State.reset.setI 4095).setReg 1 31) = false := by decide

theorem witness_DrawHaltsOutsideMemory :
    ∃ k : Nat, k < (2 : RowCount).val ∧ ((State.reset.setI 4095).reg 1).toNat % 32 + k < 32 ∧
      4096 ≤ (State.reset.setI 4095).i.toNat + k := ⟨1, by decide⟩

/-- A draw that turns a pixel off, and one that turns none off. -/
theorem witness_CollisionFlagIsExact :
    ∃ t u : State,
      drawHalts 1 1 ((withDatum 0x80 State.reset).setDisp (Display.blank.toggle 0 0)) = false ∧
      exec (.drw 0 1 1) ((withDatum 0x80 State.reset).setDisp (Display.blank.toggle 0 0)) = .next t ∧
      (Display.blank.toggle 0 0).pixel 0 0 = true ∧ t.disp.pixel 0 0 = false ∧
      drawHalts 1 1 (withDatum 0x80 State.reset) = false ∧ exec (.drw 0 1 1) (withDatum 0x80 State.reset) = .next u ∧
      ∀ r c : Nat, (withDatum 0x80 State.reset).disp.pixel r c = true → u.disp.pixel r c = true := by
  refine ⟨_, _, by decide, rfl, by decide, by decide, by decide, rfl, ?_⟩
  intro r c h
  rw [show (withDatum 0x80 State.reset).disp = Display.blank from rfl, Display.pixel_blank] at h
  cases h

theorem witness_DrawingTwiceRestoresTheDisplay :
    ∃ t u : State, drawHalts 1 1 (withDatum 0x80 State.reset) = false ∧
      exec (.drw 0 1 1) (withDatum 0x80 State.reset) = .next t ∧ u = t.setReg 3 9 ∧ State.agrees .mem t u ∧
      u.i = t.i ∧ u.disp = t.disp ∧ u.reg 0 = (withDatum 0x80 State.reset).reg 0 ∧
      u.reg 1 = (withDatum 0x80 State.reset).reg 1 :=
  ⟨_, _, by decide, rfl, rfl, fun _ => rfl, rfl, rfl, by decide, by decide⟩

/-- The first flag clause of the second draw: a covered pixel clear before the first. -/
theorem witness_DrawingTwiceRestoresTheDisplay_sets :
    spriteCovers 0 1 1 (withDatum 0x80 State.reset) 0 0 = true ∧ (withDatum 0x80 State.reset).disp.pixel 0 0 = false := by
  decide

/-- The one pixel of a sprite already set before the first draw. -/
def pixelSet : State := (withDatum 0x80 State.reset).setDisp (Display.blank.toggle 0 0)

/-- The second flag clause, with a 1 bit inside the grid: every covered pixel set before the first draw. -/
theorem witness_DrawingTwiceRestoresTheDisplay_clears :
    spriteCovers 0 1 1 pixelSet 0 0 = true ∧
    ∀ r c : Nat, spriteCovers 0 1 1 pixelSet r c = true → pixelSet.disp.pixel r c = true := by
  refine ⟨by decide, fun r c h => ?_⟩
  have hr : spriteRow 1 pixelSet = 0 := by decide
  have hc : spriteColumn 0 pixelSet = 0 := by decide
  have hb : pixelSet.mem.read pixelSet.i.toNat = 0x80 := by decide
  simp only [spriteCovers, hr, hc, Bool.and_eq_true, decide_eq_true_eq] at h
  obtain ⟨⟨⟨_, h1, _⟩, _, h2, _⟩, h3⟩ := h
  obtain rfl : r = 0 := by
    have hn : (1 : RowCount).val = 1 := rfl
    omega
  simp only [Nat.sub_zero, Nat.add_zero, hb] at h3
  have h4 : ∀ j : Fin 8, (0x80 : Byte).getLsbD (7 - j.val) = true → j = 0 := by decide
  obtain rfl : c = 0 := congrArg Fin.val (h4 ⟨c, by omega⟩ h3)
  decide

/-- 44_display.md R107, R108 (log 37): there the first draw turns the pixel off and the second turns none off. -/
theorem witness_DrawingTwiceRestoresTheDisplay_second_draw :
    ∃ t u : State, exec (.drw 0 1 1) pixelSet = .next t ∧ exec (.drw 0 1 1) t = .next u ∧ t.reg regF = 1 ∧
      u.reg regF = 0 ∧ u.disp.pixel 0 0 = true := ⟨_, _, rfl, rfl, by decide, by decide, by decide⟩

theorem witness_KeySkipsTestTheLatch :
    (∃ k : KeyCode, ((State.reset.setReg 3 15).setKey (some 15)).key = some k ∧
      k.val = (((State.reset.setReg 3 15).setKey (some 15)).reg 3).toNat) ∧
    (∀ k : KeyCode, ((State.reset.setReg 3 0x1F).setKey (some 15)).key = some k →
      k.val ≠ (((State.reset.setReg 3 0x1F).setKey (some 15)).reg 3).toNat) ∧
    (∀ k : KeyCode, State.reset.key = some k → k.val ≠ (State.reset.reg 3).toNat) :=
  ⟨⟨15, by decide⟩, by decide, by decide⟩

theorem witness_KeyWaitTakesOrBlocks : (State.reset.setKey (some 15)).key = some 15 ∧ State.reset.key = none := by decide

theorem witness_ResetRestoresEveryElement :
    (Config.fontBase < Config.fontBase ∨ Config.fontBase + 80 ≤ Config.fontBase + 80) ∧
    ((4095 : Nat) < Config.fontBase ∨ Config.fontBase + 80 ≤ 4095) := by
  have h := fontBase_fits
  simp only [Config.fontSize, Config.progBase] at h
  omega

theorem witness_TickCountsBothTimersDown : State.reset.mode = .running ∧ blocked.mode ≠ .running := by decide

theorem witness_KeyEventsFollowTheMode :
    16 ≤ (16 : Nat) ∧ State.reset.mode = .running ∧ blocked.mode = .blocked 5 ∧ halted.isHalted = true ∧
    State.reset.isHalted = false ∧ blocked.isHalted = false := by decide

theorem witness_HaltRequestKeepsTheFirstReason : blocked.isHalted = false ∧ halted.isHalted = true := by decide

theorem witness_LoadProgramCopiesTheImage :
    ∃ t : State, (List.replicate 3584 (0xFF : Byte)).length ≤ 3584 ∧ State.apply .reset halted = .next t :=
  ⟨_, Nat.le_of_eq List.length_replicate, rfl⟩

theorem witness_LongProgramHalts :
    ∃ t : State, 3584 < (List.replicate 3585 (0xFF : Byte)).length ∧ State.apply .reset halted = .next t :=
  ⟨_, by rw [List.length_replicate]; decide, rfl⟩

theorem witness_HaltedCoreIsQuiescent :
    ∃ t : State, halted.isHalted = true ∧
      (∀ op ∈ [HostOp.cycle, .tick, .clearDirty], op ≠ .reset ∧ ∀ bytes : List Byte, op ≠ .loadProgram bytes) ∧
      State.applyAll [.cycle, .tick, .clearDirty] halted = .next t := by
  refine ⟨_, rfl, ?_, rfl⟩
  intro op h
  simp only [List.mem_cons, List.not_mem_nil, or_false] at h
  rcases h with rfl | rfl | rfl <;> exact ⟨by decide, fun _ h => by cases h⟩

end Sys2Proof.Tests
end

/-! ## The cycle driver (40_cycle_driver.md) -/

section
namespace Sys2Proof.Machine

/-! ### The word at `pc` and the fetch advance -/

/-- Where the fetch check passes, under either permitted limit, the fetch reads the word at `pc`. -/
theorem fetchWord_eq_wordAtPc {s : State} (h : s.pc.toNat < 4095) : fetchWord s = .next s.wordAtPc :=
  fetchWord_of_fits s (Nat.succ_lt_succ h)

/-- The word at `pc` is big-endian (20_memory.md R39). -/
theorem State.wordAtPc_toNat (s : State) :
    s.wordAtPc.toNat = (s.mem.read s.pc.toNat).toNat * 256 + (s.mem.read (s.pc.toNat + 1)).toNat :=
  wordOfBytes_toNat _ _

/-- The advance does not wrap wherever an address of memory is in `pc`. -/
theorem State.advance_pc_toNat {s : State} (h : s.pc.toNat < Config.memSize) :
    s.advance.pc.toNat = s.pc.toNat + 2 := by
  simp only [Config.memSize] at h
  rw [State.advance_pc]
  bv_omega

theorem unchangedExcept_pc_setPc (s : State) (w : Word) : UnchangedExcept [.pc] s (s.setPc w) := by
  intro e he
  cases e with
  | pc => exact absurd (List.mem_singleton.mpr rfl) he
  | mem | regs => exact fun _ => rfl
  | disp => exact fun _ _ => rfl
  | i | stack | dt | st | dirty | mode | key | draws => rfl

theorem unchangedExcept_pc_advance (s : State) : UnchangedExcept [.pc] s s.advance :=
  unchangedExcept_pc_setPc s (s.pc + 2)

/-! ### The cycle, case by case -/

/-- R69, R70, under any limit that keeps the fetch inside memory: the instruction decoded from the word at `pc` runs in
the advanced state. -/
theorem cycleWith_of_fetches {limit : Nat} {run : Instr → State → Host.Outcome State Fault Refusal} {s : State}
    (hlimit : limit ≤ 4095) (hrun : s.mode = .running) (hpc : s.pc.toNat < limit) :
    cycleWith limit run s = run (decodeWord s.wordAtPc) s.advance := by
  have hfetch : fetchWord s = .next s.wordAtPc := fetchWord_eq_wordAtPc (Nat.lt_of_lt_of_le hpc hlimit)
  simp only [cycleWith, hrun, ge_iff_le, Nat.not_le.mpr hpc, if_false, hfetch, andThen_next]

theorem step_of_fetches {s : State} (hrun : s.mode = .running) (hpc : s.pc.toNat < 4094) :
    step s = exec (decodeWord s.wordAtPc) s.advance :=
  cycleWith_of_fetches (by decide) hrun hpc

/-- Settles O7: the fetch check passes, so both bytes of the word are in memory and the advance cannot wrap. -/
theorem cycleRunsTheDecodedInstruction : Obligations.CycleRunsTheDecodedInstruction := by
  intro s hrun hpc
  exact ⟨step_of_fetches hrun hpc, s.wordAtPc_toNat,
    State.advance_pc_toNat (Nat.lt_trans hpc (by decide)), unchangedExcept_pc_advance s⟩

end Sys2Proof.Machine
end

/-! ## Control flow (41_flow.md) -/

section
namespace Sys2Proof

/-! ### The words of classes 1, 3, 4 and B -/

/-- `00E0` and `00EE` are the only words decoded by exact match, and both are of class 0 (R58). -/
theorem not_exactWord_of_fieldClass_ne_zero {w : Word} (h : fieldClass w ≠ 0) : w ≠ 0x00E0 ∧ w ≠ 0x00EE := by
  constructor
  · rintro rfl
    exact h (by decide)
  · rintro rfl
    exact h (by decide)

theorem decodeWord_eq_jp {w : Word} (h : fieldClass w = 1) : decodeWord w = .jp (fieldNnn w) := by
  obtain ⟨hcls, hret⟩ := not_exactWord_of_fieldClass_ne_zero (h.trans_ne (by decide))
  simp only [decodeWord, hcls, hret, if_false, h]

theorem decodeWord_eq_seImm {w : Word} (h : fieldClass w = 3) : decodeWord w = .seImm (fieldX w) (fieldKk w) := by
  obtain ⟨hcls, hret⟩ := not_exactWord_of_fieldClass_ne_zero (h.trans_ne (by decide))
  simp only [decodeWord, hcls, hret, if_false, h]

theorem decodeWord_eq_sneImm {w : Word} (h : fieldClass w = 4) : decodeWord w = .sneImm (fieldX w) (fieldKk w) := by
  obtain ⟨hcls, hret⟩ := not_exactWord_of_fieldClass_ne_zero (h.trans_ne (by decide))
  simp only [decodeWord, hcls, hret, if_false, h]

theorem decodeWord_eq_jpV0 {w : Word} (h : fieldClass w = 0xB) : decodeWord w = .jpV0 (fieldNnn w) := by
  obtain ⟨hcls, hret⟩ := not_exactWord_of_fieldClass_ne_zero (h.trans_ne (by decide))
  simp only [decodeWord, hcls, hret, if_false, h]

theorem decodeWord_jp (nnn : Addr) : decodeWord (wordNnn 1 nnn) = .jp nnn := by
  rw [decodeWord_eq_jp (fieldClass_wordNnn (by decide) nnn), fieldNnn_wordNnn (by decide)]

theorem decodeWord_jpV0 (nnn : Addr) : decodeWord (wordNnn 0xB nnn) = .jpV0 nnn := by
  rw [decodeWord_eq_jpV0 (fieldClass_wordNnn (by decide) nnn), fieldNnn_wordNnn (by decide)]

theorem decodeWord_seImm (x : Reg) (kk : Byte) : decodeWord (wordXkk 3 x kk) = .seImm x kk := by
  rw [decodeWord_eq_seImm (fieldClass_wordXkk (by decide) x kk), fieldX_wordXkk (by decide),
    fieldKk_wordXkk (by decide)]

theorem decodeWord_sneImm (x : Reg) (kk : Byte) : decodeWord (wordXkk 4 x kk) = .sneImm x kk := by
  rw [decodeWord_eq_sneImm (fieldClass_wordXkk (by decide) x kk), fieldX_wordXkk (by decide),
    fieldKk_wordXkk (by decide)]

end Sys2Proof

namespace Sys2Proof.Machine

/-! ### Frames -/

theorem State.agrees_trans {e : Element} {s t u : State} (hst : s.agrees e t) (htu : t.agrees e u) :
    s.agrees e u := by
  cases e with
  | mem | regs => exact fun a => (htu a).trans (hst a)
  | disp => exact fun r c => (htu r c).trans (hst r c)
  | i | pc | stack | dt | st | dirty | mode | key | draws => exact Eq.trans htu hst

theorem UnchangedExcept.trans {es : List Element} {s t u : State} (hst : UnchangedExcept es s t)
    (htu : UnchangedExcept es t u) : UnchangedExcept es s u :=
  fun e he => State.agrees_trans (hst e he) (htu e he)

/-- A frame may list more elements than it needs. -/
theorem UnchangedExcept.mono {es fs : List Element} {s t : State} (h : UnchangedExcept es s t) (hsub : es ⊆ fs) :
    UnchangedExcept fs s t :=
  fun e he => h e fun hmem => he (hsub hmem)

theorem UnchangedExcept.refl (es : List Element) (s : State) : UnchangedExcept es s s := by
  intro e _
  cases e with
  | mem | regs => exact fun _ => rfl
  | disp => exact fun _ _ => rfl
  | i | pc | stack | dt | st | dirty | mode | key | draws => rfl

theorem unchangedExcept_stack_setStack (s : State) (l : List Word) :
    UnchangedExcept [.stack] s (s.setStack l) := by
  intro e he
  cases e with
  | stack => exact absurd (List.mem_singleton.mpr rfl) he
  | mem | regs => exact fun _ => rfl
  | disp => exact fun _ _ => rfl
  | i | pc | dt | st | dirty | mode | key | draws => rfl

theorem unchangedExcept_mode_setMode (s : State) (m : Mode) : UnchangedExcept [.mode] s (s.setMode m) := by
  intro e he
  cases e with
  | mode => exact absurd (List.mem_singleton.mpr rfl) he
  | mem | regs => exact fun _ => rfl
  | disp => exact fun _ _ => rfl
  | i | pc | stack | dt | st | dirty | key | draws => rfl

theorem unchangedExcept_pc_skipIf (s : State) (c : Bool) : UnchangedExcept [.pc] s (s.skipIf c) := by
  cases c with
  | true => exact unchangedExcept_pc_advance s
  | false => exact UnchangedExcept.refl _ s

/-! ### The fetch check -/

/-- R68, under any limit: at or above it the cycle halts before anything is fetched or advanced. -/
theorem cycleWith_of_limit_le {limit : Nat} {run : Instr → State → Host.Outcome State Fault Refusal} {s : State}
    (hrun : s.mode = .running) (hpc : limit ≤ s.pc.toNat) :
    cycleWith limit run s = .next (s.setMode (.halted .invalidProgramCounter)) := by
  simp only [cycleWith, hrun, ge_iff_le, hpc, if_true, raiseHalt]

theorem step_of_limit_le {s : State} (hrun : s.mode = .running) (hpc : Config.pcFetchLimit ≤ s.pc.toNat) :
    step s = .next (s.setMode (.halted .invalidProgramCounter)) :=
  cycleWith_of_limit_le hrun hpc

/-! ### RET (R77) -/

theorem State.pop_of_stack_eq_append {s : State} {below : List Word} {a : Word} (h : s.stack = below ++ [a]) :
    s.pop = some (a, s.setStack below) := by
  simp [State.pop, h]

theorem State.pop_of_stack_eq_nil {s : State} (h : s.stack = []) : s.pop = none := by
  simp [State.pop, h]

theorem exec_ret_of_stack_eq_append {s : State} {below : List Word} {a : Word} (h : s.stack = below ++ [a]) :
    exec .ret s = .next ((s.setStack below).setPc a) := by
  simp only [exec, execRet, State.pop_of_stack_eq_append h]

theorem exec_ret_of_stack_eq_nil {s : State} (h : s.stack = []) :
    exec .ret s = .next (s.setMode (.halted .stackUnderflow)) := by
  simp only [exec, execRet, State.pop_of_stack_eq_nil h, raiseHalt]

/-- Every return address is at most 4095 under the invariant. -/
theorem State.Inv.stack_le {s : State} (h : s.Inv) {a : Word} (ha : a ∈ s.stack) : a.toNat ≤ 4095 := by
  obtain ⟨-, -, hstack, -⟩ := h
  exact hstack a ha

/-- Settles O21: the two branches of RET are whether the stack has a top, and the invariant bounds that top. -/
theorem returnPopsOrUnderflows : Obligations.ReturnPopsOrUnderflows := by
  refine ⟨by decide, ?_, ?_, ?_⟩
  · intro s below a hstack
    have hpop : UnchangedExcept [.pc, .stack] s (s.setStack below) :=
      (unchangedExcept_stack_setStack s below).mono (by simp)
    have hjump : UnchangedExcept [.pc, .stack] (s.setStack below) ((s.setStack below).setPc a) :=
      (unchangedExcept_pc_setPc _ a).mono (by simp)
    exact ⟨_, exec_ret_of_stack_eq_append hstack, rfl, rfl, hpop.trans hjump⟩
  · intro s hempty
    exact ⟨_, exec_ret_of_stack_eq_nil hempty, rfl, unchangedExcept_mode_setMode s _⟩
  · intro s below a hinv hstack
    exact hinv.stack_le (by simp [hstack])

/-! ### JP nnn (R78) -/

@[simp] theorem addrOperand_toNat (nnn : Addr) : (addrOperand nnn).toNat = nnn.toNat :=
  BitVec.toNat_setWidth_of_le (by decide)

theorem exec_jp (nnn : Addr) (s : State) : exec (.jp nnn) s = .next (s.setPc (addrOperand nnn)) := rfl

/-- A jump undoes the fetch advance when it goes to the address it was fetched from. -/
theorem State.advance_setPc_self (s : State) : s.advance.setPc s.pc = s := rfl

/-- The cycle of a jump to its own address leaves the whole state as it was. -/
theorem step_of_jp_self {s : State} {nnn : Addr} (hrun : s.mode = .running) (hpc : s.pc = addrOperand nnn)
    (hfetch : s.pc.toNat < 4094) (hword : s.wordAtPc = wordNnn 1 nnn) : step s = .next s := by
  rw [step_of_fetches hrun hfetch, hword, decodeWord_jp, exec_jp, ← hpc, State.advance_setPc_self]

/-- Settles O22: the operand is `pc` after the jump, so the fetch check of the next cycle sees it as it is. -/
theorem jumpSetsProgramCounter : Obligations.JumpSetsProgramCounter := by
  intro nnn
  refine ⟨decodeWord_jp nnn, fun s => ?_⟩
  have htarget : (s.setPc (addrOperand nnn)).pc.toNat = nnn.toNat := addrOperand_toNat nnn
  refine ⟨_, exec_jp nnn s, htarget, unchangedExcept_pc_setPc s _, ?_, ?_⟩
  · intro hrun hout
    exact step_of_limit_le hrun (htarget ▸ hout)
  · intro hrun hself hfetch hword
    have hpc : s.pc = addrOperand nnn := BitVec.eq_of_toNat_eq (hself.trans (addrOperand_toNat nnn).symm)
    exact step_of_jp_self hrun hpc (hself ▸ hfetch) hword

/-! ### SE and SNE with an immediate (R80, R81) -/

theorem exec_seImm (x : Reg) (kk : Byte) (s : State) :
    exec (.seImm x kk) s = .next (s.skipIf (s.reg x == kk)) := rfl

theorem exec_sneImm (x : Reg) (kk : Byte) (s : State) :
    exec (.sneImm x kk) s = .next (s.skipIf (s.reg x != kk)) := rfl

/-- A skip on top of the advance to 4094 leaves memory, and the next cycle halts. -/
theorem skip_at_4094_halts {s : State} {c : Bool} (hskip : c = true) (hrun : s.mode = .running)
    (hpc : s.pc.toNat = 4094) :
    (s.skipIf c).pc.toNat = 4096 ∧
      step (s.skipIf c) = .next ((s.skipIf c).setMode (.halted .invalidProgramCounter)) := by
  subst hskip
  have htarget : (s.skipIf true).pc.toNat = 4096 := by
    calc s.advance.pc.toNat = s.pc.toNat + 2 := State.advance_pc_toNat (hpc ▸ by decide)
      _ = 4096 := by rw [hpc]
  exact ⟨htarget, step_of_limit_le hrun (htarget ▸ by decide)⟩

/-- Settles O25: a skip is one more advance, taken or not by the comparison alone. -/
theorem immediateSkipsCompare : Obligations.ImmediateSkipsCompare := by
  intro x kk
  refine ⟨decodeWord_seImm x kk, decodeWord_sneImm x kk, fun s => ⟨?se, ?sne⟩⟩
  case se =>
    refine ⟨_, exec_seImm x kk s, ?_, unchangedExcept_pc_skipIf s _, ?_⟩
    · simp [BitVec.toNat_inj]
    · intro hrun hpc heq
      exact skip_at_4094_halts (beq_iff_eq.mpr (BitVec.eq_of_toNat_eq heq)) hrun hpc
  case sne =>
    refine ⟨_, exec_sneImm x kk s, ?_, unchangedExcept_pc_skipIf s _, ?_⟩
    · simp [BitVec.toNat_inj]
    · intro hrun hpc hne
      exact skip_at_4094_halts (bne_iff_ne.mpr fun heq => hne (congrArg BitVec.toNat heq)) hrun hpc

/-! ### JP V0, nnn (R84) -/

/-- The computed target is the exact sum: 12 and 8 bits cannot overflow 16. -/
theorem computedTarget_toNat (nnn : Addr) (s : State) :
    (computedTarget nnn s).toNat = nnn.toNat + (s.reg 0).toNat := by
  have hnnn := nnn.isLt
  have hreg := (s.reg 0).isLt
  simp only [computedTarget, BitVec.toNat_add, BitVec.toNat_setWidth]
  omega

theorem exec_jpV0 (nnn : Addr) (s : State) : exec (.jpV0 nnn) s = .next (s.setPc (computedTarget nnn s)) := rfl

/-- Settles O27: the target is the exact sum, and the fetch check of the next cycle sees it as it is. -/
theorem computedJumpAddsV0 : Obligations.ComputedJumpAddsV0 := by
  intro nnn
  refine ⟨decodeWord_jpV0 nnn, fun s => ?_⟩
  have htarget : (s.setPc (computedTarget nnn s)).pc.toNat = nnn.toNat + (s.reg 0).toNat :=
    computedTarget_toNat nnn s
  have hbound : nnn.toNat + (s.reg 0).toNat ≤ 0x10FE := by
    have hnnn := nnn.isLt
    have hreg := (s.reg 0).isLt
    omega
  exact ⟨_, exec_jpV0 nnn s, htarget, htarget ▸ hbound, unchangedExcept_pc_setPc s _,
    fun hrun hout => step_of_limit_le hrun hout⟩

end Sys2Proof.Machine
end

/-! ## Loads, arithmetic and logic (42_alu.md) -/

section
namespace Sys2Proof

/-! ### The words of classes 6, 7 and 8 -/

theorem decodeWord_eq_ldImm {w : Word} (h : fieldClass w = 6) : decodeWord w = .ldImm (fieldX w) (fieldKk w) := by
  obtain ⟨hcls, hret⟩ := not_exactWord_of_fieldClass_ne_zero (h.trans_ne (by decide))
  simp only [decodeWord, hcls, hret, if_false, h]

theorem decodeWord_eq_addImm {w : Word} (h : fieldClass w = 7) : decodeWord w = .addImm (fieldX w) (fieldKk w) := by
  obtain ⟨hcls, hret⟩ := not_exactWord_of_fieldClass_ne_zero (h.trans_ne (by decide))
  simp only [decodeWord, hcls, hret, if_false, h]

theorem decodeWord_eq_decodeClass8 {w : Word} (h : fieldClass w = 8) : decodeWord w = decodeClass8 w := by
  obtain ⟨hcls, hret⟩ := not_exactWord_of_fieldClass_ne_zero (h.trans_ne (by decide))
  simp only [decodeWord, hcls, hret, if_false, h]

theorem decodeWord_ldImm (x : Reg) (kk : Byte) : decodeWord (wordXkk 6 x kk) = .ldImm x kk := by
  rw [decodeWord_eq_ldImm (fieldClass_wordXkk (by decide) x kk), fieldX_wordXkk (by decide),
    fieldKk_wordXkk (by decide)]

theorem decodeWord_addImm (x : Reg) (kk : Byte) : decodeWord (wordXkk 7 x kk) = .addImm x kk := by
  rw [decodeWord_eq_addImm (fieldClass_wordXkk (by decide) x kk), fieldX_wordXkk (by decide),
    fieldKk_wordXkk (by decide)]

/-- A row of class 8 is known by its low nibble `n` alone (R60); `op` is the instruction of that row. -/
theorem decodeWord_wordXyn_8 {op : Reg → Reg → Instr} {n : RowCount}
    (hrow : ∀ w : Word, fieldN w = n → decodeClass8 w = op (fieldX w) (fieldY w)) (x y : Reg) :
    decodeWord (wordXyn 8 x y n) = op x y := by
  rw [decodeWord_eq_decodeClass8 (fieldClass_wordXyn (by decide) x y n), hrow _ (fieldN_wordXyn (by decide) x y n),
    fieldX_wordXyn (by decide), fieldY_wordXyn (by decide)]

theorem decodeWord_ldReg (x y : Reg) : decodeWord (wordXyn 8 x y 0) = .ldReg x y :=
  decodeWord_wordXyn_8 (fun w h => by simp [decodeClass8, h]) x y

theorem decodeWord_orReg (x y : Reg) : decodeWord (wordXyn 8 x y 1) = .orReg x y :=
  decodeWord_wordXyn_8 (fun w h => by simp [decodeClass8, h]) x y

theorem decodeWord_andReg (x y : Reg) : decodeWord (wordXyn 8 x y 2) = .andReg x y :=
  decodeWord_wordXyn_8 (fun w h => by simp [decodeClass8, h]) x y

theorem decodeWord_xorReg (x y : Reg) : decodeWord (wordXyn 8 x y 3) = .xorReg x y :=
  decodeWord_wordXyn_8 (fun w h => by simp [decodeClass8, h]) x y

theorem decodeWord_addReg (x y : Reg) : decodeWord (wordXyn 8 x y 4) = .addReg x y :=
  decodeWord_wordXyn_8 (fun w h => by simp [decodeClass8, h]) x y

end Sys2Proof

namespace Sys2Proof.Machine

/-! ### One register write -/

theorem State.reg_setReg_self (s : State) (r : Reg) (b : Byte) : (s.setReg r b).reg r = b := by
  rw [State.reg_setReg, if_pos rfl]

theorem State.reg_setReg_of_ne (s : State) {q r : Reg} (b : Byte) (h : r ≠ q) : (s.setReg q b).reg r = s.reg r := by
  rw [State.reg_setReg, if_neg h]

theorem regsUnchangedExcept_setReg (s : State) (r : Reg) (b : Byte) : RegsUnchangedExcept [r] s (s.setReg r b) :=
  fun _ hq => s.reg_setReg_of_ne b fun heq => hq (List.mem_singleton.mpr heq)

theorem unchangedExcept_regs_setReg (s : State) (r : Reg) (b : Byte) : UnchangedExcept [.regs] s (s.setReg r b) := by
  intro e he
  cases e with
  | regs => exact absurd (List.mem_singleton.mpr rfl) he
  | mem => exact fun _ => rfl
  | disp => exact fun _ _ => rfl
  | i | pc | stack | dt | st | dirty | mode | key | draws => rfl

/-! ### A flag write, then a register write -/

/-- When `x = F` the second write wins. -/
theorem State.regF_setVF_setReg (s : State) {x : Reg} (flag b : Byte) (hx : x ≠ regF) :
    ((s.setVF flag).setReg x b).reg regF = flag := by
  rw [State.reg_setReg_of_ne _ b hx.symm, State.reg_setVF, if_pos rfl]

theorem regsUnchangedExcept_setVF_setReg (s : State) (x : Reg) (flag b : Byte) :
    RegsUnchangedExcept [regF, x] s ((s.setVF flag).setReg x b) := by
  intro r hr
  obtain ⟨hrF, hrx⟩ : r ≠ regF ∧ r ≠ x := by simpa using hr
  rw [State.reg_setReg_of_ne _ b hrx, State.reg_setVF, if_neg hrF]

theorem unchangedExcept_regs_setVF_setReg (s : State) (x : Reg) (flag b : Byte) :
    UnchangedExcept [.regs] s ((s.setVF flag).setReg x b) :=
  (unchangedExcept_regs_setReg s regF flag).trans (unchangedExcept_regs_setReg (s.setVF flag) x b)

/-! ### LD Vx, kk and ADD Vx, kk (R85, R86) -/

theorem exec_ldImm (x : Reg) (kk : Byte) (s : State) : exec (.ldImm x kk) s = .next (s.setReg x kk) := rfl

theorem exec_addImm (x : Reg) (kk : Byte) (s : State) :
    exec (.addImm x kk) s = .next (s.setReg x (s.reg x + kk)) := rfl

/-- Settles O29: each instruction is one write of `V[x]`, and byte addition is addition modulo 256. -/
theorem immediateLoadAndAdd : Obligations.ImmediateLoadAndAdd := by
  intro x kk
  refine ⟨decodeWord_ldImm x kk, decodeWord_addImm x kk, fun s => ⟨?ld, ?add⟩⟩
  case ld =>
    exact ⟨_, exec_ldImm x kk s, s.reg_setReg_self x kk, regsUnchangedExcept_setReg s x kk,
      unchangedExcept_regs_setReg s x kk⟩
  case add =>
    refine ⟨_, exec_addImm x kk s, ?_, regsUnchangedExcept_setReg s x _, unchangedExcept_regs_setReg s x _⟩
    rw [State.reg_setReg_self, BitVec.toNat_add]

/-! ### LD, OR, AND and XOR on two registers (R87 to R90) -/

theorem exec_ldReg (x y : Reg) (s : State) : exec (.ldReg x y) s = .next (s.setReg x (s.reg y)) := rfl

theorem exec_orReg (x y : Reg) (s : State) : exec (.orReg x y) s = .next (s.setReg x (s.reg x ||| s.reg y)) := rfl

theorem exec_andReg (x y : Reg) (s : State) : exec (.andReg x y) s = .next (s.setReg x (s.reg x &&& s.reg y)) := rfl

theorem exec_xorReg (x y : Reg) (s : State) : exec (.xorReg x y) s = .next (s.setReg x (s.reg x ^^^ s.reg y)) := rfl

/-- Settles O30: each instruction is one write of `V[x]`, and the bitwise operations act on each bit alone. -/
theorem movesAndBitwiseLogic : Obligations.MovesAndBitwiseLogic := by
  intro x y
  refine ⟨decodeWord_ldReg x y, decodeWord_orReg x y, decodeWord_andReg x y, decodeWord_xorReg x y,
    fun s => ⟨?ld, ?or, ?and, ?xor⟩⟩
  case ld =>
    exact ⟨_, exec_ldReg x y s, s.reg_setReg_self x _, regsUnchangedExcept_setReg s x _,
      unchangedExcept_regs_setReg s x _⟩
  case or =>
    refine ⟨_, exec_orReg x y s, fun b => ?_, regsUnchangedExcept_setReg s x _, unchangedExcept_regs_setReg s x _⟩
    rw [State.reg_setReg_self, BitVec.getLsbD_or]
  case and =>
    refine ⟨_, exec_andReg x y s, fun b => ?_, regsUnchangedExcept_setReg s x _, unchangedExcept_regs_setReg s x _⟩
    rw [State.reg_setReg_self, BitVec.getLsbD_and]
  case xor =>
    refine ⟨_, exec_xorReg x y s, fun b => ?_, regsUnchangedExcept_setReg s x _, unchangedExcept_regs_setReg s x _⟩
    rw [State.reg_setReg_self, BitVec.getLsbD_xor]

/-! ### ADD Vx, Vy (R91) -/

theorem carryFlag_eq (a b : Byte) : carryFlag a b = if a.toNat + b.toNat > 255 then 1 else 0 := by
  simp only [carryFlag, flagByte, decide_eq_true_eq]

theorem exec_addReg (x y : Reg) (s : State) :
    exec (.addReg x y) s = .next ((s.setVF (carryFlag (s.reg x) (s.reg y))).setReg x (s.reg x + s.reg y)) := rfl

/-- Settles O31: the carry is written first and the sum second, so the sum is in `V[x]` even when `x = F`. -/
theorem registerAddSetsCarry : Obligations.RegisterAddSetsCarry := by
  intro x y
  refine ⟨decodeWord_addReg x y, fun s => ?_⟩
  refine ⟨_, exec_addReg x y s, ?sum, ?carry, regsUnchangedExcept_setVF_setReg s x _ _,
    unchangedExcept_regs_setVF_setReg s x _ _⟩
  case sum => rw [State.reg_setReg_self, BitVec.toNat_add]
  case carry =>
    intro hx
    rw [State.regF_setVF_setReg s _ _ hx, carryFlag_eq]

end Sys2Proof.Machine
end

/-! ## The index register and memory (43_index_memory.md) -/

section
namespace Sys2Proof

/-! ### The words of class A -/

theorem decodeWord_eq_ldI {w : Word} (h : fieldClass w = 0xA) : decodeWord w = .ldI (fieldNnn w) := by
  obtain ⟨hcls, hret⟩ := not_exactWord_of_fieldClass_ne_zero (h.trans_ne (by decide))
  simp only [decodeWord, hcls, hret, if_false, h]

theorem decodeWord_ldI (nnn : Addr) : decodeWord (wordNnn 0xA nnn) = .ldI nnn := by
  rw [decodeWord_eq_ldI (fieldClass_wordNnn (by decide) nnn), fieldNnn_wordNnn (by decide)]

end Sys2Proof

namespace Sys2Proof.Machine

/-! ### LD I, nnn (R98) -/

theorem unchangedExcept_i_setI (s : State) (w : Word) : UnchangedExcept [.i] s (s.setI w) := by
  intro e he
  cases e with
  | i => exact absurd (List.mem_singleton.mpr rfl) he
  | mem | regs => exact fun _ => rfl
  | disp => exact fun _ _ => rfl
  | pc | stack | dt | st | dirty | mode | key | draws => rfl

theorem exec_ldI (nnn : Addr) (s : State) : exec (.ldI nnn) s = .next (s.setI (addrOperand nnn)) := rfl

/-- Settles O35: the one write is of `I`, and widening the operand keeps its value. -/
theorem loadAddressSetsI : Obligations.LoadAddressSetsI := by
  intro nnn
  exact ⟨decodeWord_ldI nnn, fun s =>
    ⟨_, exec_ldI nnn s, addrOperand_toNat nnn, unchangedExcept_i_setI s (addrOperand nnn)⟩⟩

/-! ### The decimal digits of a byte (R101) -/

/-- A number below 256 survives as a byte. -/
theorem byte_ofNat_toNat {n : Nat} (h : n < 256) : (BitVec.ofNat 8 n).toNat = n := by
  rw [BitVec.toNat_ofNat, Nat.mod_eq_of_lt h]

theorem hundreds_toNat (b : Byte) : (hundreds b).toNat = b.toNat / 100 :=
  byte_ofNat_toNat (Nat.lt_of_le_of_lt (Nat.div_le_self _ _) b.isLt)

theorem tens_toNat (b : Byte) : (tens b).toNat = b.toNat / 10 % 10 :=
  byte_ofNat_toNat (Nat.lt_trans (Nat.mod_lt _ (by decide)) (by decide))

theorem ones_toNat (b : Byte) : (ones b).toNat = b.toNat % 10 :=
  byte_ofNat_toNat (Nat.lt_trans (Nat.mod_lt _ (by decide)) (by decide))

/-- Settles O38: no digit is truncated to 8 bits, so the bounds and the sum are facts of division by 10 and 100. -/
theorem decimalDigitsOfAByte : Obligations.DecimalDigitsOfAByte := by
  intro b
  have hbyte : b.toNat < 256 := b.isLt
  rw [hundreds_toNat, tens_toNat, ones_toNat]
  refine ⟨rfl, rfl, rfl, ?_, ?_, ?_, ?_⟩ <;> omega

end Sys2Proof.Machine
end

/-! ## The display (44_display.md) -/

section
namespace Sys2Proof.Machine

/-! ### Frames -/

theorem unchangedExcept_disp_setDisp (s : State) (d : Display) : UnchangedExcept [.disp] s (s.setDisp d) := by
  intro e he
  cases e with
  | disp => exact absurd (List.mem_singleton.mpr rfl) he
  | mem | regs => exact fun _ => rfl
  | i | pc | stack | dt | st | dirty | mode | key | draws => rfl

theorem unchangedExcept_dirty_setDirty (s : State) (b : Bool) : UnchangedExcept [.dirty] s (s.setDirty b) := by
  intro e he
  cases e with
  | dirty => exact absurd (List.mem_singleton.mpr rfl) he
  | mem | regs => exact fun _ => rfl
  | disp => exact fun _ _ => rfl
  | i | pc | stack | dt | st | mode | key | draws => rfl

/-! ### CLS (R105) -/

theorem exec_cls (s : State) : exec .cls s = .next ((s.setDisp Display.blank).setDirty true) := rfl

/-- Settles O45: the grid becomes the blank one and the mark is set, and neither write looks at the grid before. -/
theorem clearScreenClearsAndMarks : Obligations.ClearScreenClearsAndMarks := by
  refine ⟨by decide, fun s => ?_⟩
  have hclear : UnchangedExcept [.disp, .dirty] s (s.setDisp Display.blank) :=
    (unchangedExcept_disp_setDisp s _).mono (by simp)
  have hmark : UnchangedExcept [.disp, .dirty] (s.setDisp Display.blank) ((s.setDisp Display.blank).setDirty true) :=
    (unchangedExcept_dirty_setDirty _ true).mono (by simp)
  exact ⟨_, exec_cls s, Display.pixel_blank, rfl, hclear.trans hmark⟩

/-! ### A completed draw (R107) -/

/-- A draw that does not halt draws no row at all, or has every row's byte in memory. -/
theorem drawHalts_eq_false_iff (y : Reg) (n : RowCount) (s : State) :
    drawHalts y n s = false ↔ spriteRows y n s = 0 ∨ s.i.toNat + spriteRows y n s ≤ Config.memSize := by
  simp only [drawHalts, Config.memSize, decide_eq_false_iff_not]
  omega

/-- The bytes of the sprite rows inside the grid. -/
def spriteBytes (y : Reg) (n : RowCount) (s : State) : List Byte :=
  (List.range (spriteRows y n s)).map fun j => s.mem.read (s.i.toNat + j)

@[simp] theorem spriteBytes_length (y : Reg) (n : RowCount) (s : State) :
    (spriteBytes y n s).length = spriteRows y n s := by
  rw [spriteBytes, List.length_map, List.length_range]

/-- No drawn row is below the bottom edge. -/
theorem spriteRow_add_length_le (y : Reg) (n : RowCount) (s : State) :
    spriteRow y s + (spriteBytes y n s).length ≤ 32 := by
  have hrow : spriteRow y s < 32 := Nat.mod_lt _ (by decide)
  simp only [spriteBytes_length, spriteRows, Config.height]
  omega

theorem loadBytes_of_drawHalts_eq_false {y : Reg} {n : RowCount} {s : State} (h : drawHalts y n s = false) :
    loadBytes s.i.toNat (spriteRows y n s) s = .next (spriteBytes y n s) := by
  rcases (drawHalts_eq_false_iff y n s).mp h with hnone | hfits
  · simp [spriteBytes, hnone, loadBytes]
  · exact loadBytes_of_fits s hfits

/-- The grid a completed draw leaves, and whether the draw turned a set pixel off. -/
def drawnCanvas (x y : Reg) (n : RowCount) (s : State) : Canvas :=
  drawRows (spriteRow y s) (spriteColumn x s) (spriteBytes y n s) { disp := s.disp, hit := false }

theorem exec_drw_of_drawHalts_eq_false (x : Reg) {y : Reg} {n : RowCount} {s : State}
    (h : drawHalts y n s = false) :
    exec (.drw x y n) s = .next (((s.setDisp (drawnCanvas x y n s).disp).setVF
      (collisionFlag (drawnCanvas x y n s).hit)).setDirty true) := by
  have hpass : ¬(spriteRows y n s > 0 ∧ s.i.toNat + spriteRows y n s - 1 ≥ Config.memSize) :=
    of_decide_eq_false h
  rw [show exec (.drw x y n) s = execDrw x y n s from rfl, execDrw, if_neg hpass,
    loadBytes_of_drawHalts_eq_false h, andThen_next]
  rfl

/-! ### The collision flag (R108) -/

/-- Rows inside the grid collide exactly where they turn a set pixel off. -/
theorem drawRows_hit_iff_turnsOff (bytes : List Byte) (r cx : Nat) (p : Canvas) (hr : r + bytes.length ≤ 32) :
    (drawRows r cx bytes p).hit = true ↔ p.hit = true ∨
      ∃ r' c' : Nat, p.disp.pixel r' c' = true ∧ (drawRows r cx bytes p).disp.pixel r' c' = false := by
  obtain ⟨hpixel, hhit⟩ := drawRows_spec bytes r cx p hr
  rw [hhit]
  refine or_congr_right (exists₂_congr fun r' c' => ?_)
  rw [hpixel]
  cases p.disp.pixel r' c' with
  | false => simp
  | true => simp

theorem drawnCanvas_hit_iff (x y : Reg) (n : RowCount) (s : State) :
    (drawnCanvas x y n s).hit = true ↔
      ∃ r c : Nat, s.disp.pixel r c = true ∧ (drawnCanvas x y n s).disp.pixel r c = false := by
  simpa [drawnCanvas] using drawRows_hit_iff_turnsOff _ _ (spriteColumn x s) { disp := s.disp, hit := false }
    (spriteRow_add_length_le y n s)

/-- Settles O48: `VF` holds the canvas's collision mark, which is set exactly when a set pixel was turned off. -/
theorem collisionFlagIsExact : Obligations.CollisionFlagIsExact := by
  intro x y n s hcompletes
  refine ⟨_, exec_drw_of_drawHalts_eq_false x hcompletes, ?_, ?_⟩
  · intro hoff
    have hhit : (drawnCanvas x y n s).hit = true := (drawnCanvas_hit_iff x y n s).mpr hoff
    simp [hhit, collisionFlag, flagByte]
  · intro hkept
    have hmiss : (drawnCanvas x y n s).hit = false := by
      rw [Bool.eq_false_iff, ne_eq, drawnCanvas_hit_iff]
      rintro ⟨r, c, hset, hclear⟩
      exact absurd (hkept r c hset) (by simp [hclear])
    simp [hmiss, collisionFlag, flagByte]

end Sys2Proof.Machine
end

/-! ## Keys and timers (45_keys_timers.md) -/

section
namespace Sys2Proof

/-! ### The words of classes E and F -/

theorem decodeWord_eq_decodeClassE {w : Word} (h : fieldClass w = 0xE) : decodeWord w = decodeClassE w := by
  obtain ⟨hcls, hret⟩ := not_exactWord_of_fieldClass_ne_zero (h.trans_ne (by decide))
  simp only [decodeWord, hcls, hret, if_false, h]

theorem decodeWord_eq_decodeClassF {w : Word} (h : fieldClass w = 0xF) : decodeWord w = decodeClassF w := by
  obtain ⟨hcls, hret⟩ := not_exactWord_of_fieldClass_ne_zero (h.trans_ne (by decide))
  simp only [decodeWord, hcls, hret, if_false, h]

/-- A row of class E is known by its low byte `kk` alone (R60); `op` is the instruction of that row. -/
theorem decodeWord_wordXkk_E {op : Reg → Instr} {kk : Byte}
    (hrow : ∀ w : Word, fieldKk w = kk → decodeClassE w = op (fieldX w)) (x : Reg) :
    decodeWord (wordXkk 0xE x kk) = op x := by
  rw [decodeWord_eq_decodeClassE (fieldClass_wordXkk (by decide) x kk), hrow _ (fieldKk_wordXkk (by decide) x kk),
    fieldX_wordXkk (by decide)]

/-- A row of class F is known by its low byte `kk` alone (R60); `op` is the instruction of that row. -/
theorem decodeWord_wordXkk_F {op : Reg → Instr} {kk : Byte}
    (hrow : ∀ w : Word, fieldKk w = kk → decodeClassF w = op (fieldX w)) (x : Reg) :
    decodeWord (wordXkk 0xF x kk) = op x := by
  rw [decodeWord_eq_decodeClassF (fieldClass_wordXkk (by decide) x kk), hrow _ (fieldKk_wordXkk (by decide) x kk),
    fieldX_wordXkk (by decide)]

theorem decodeWord_skp (x : Reg) : decodeWord (wordXkk 0xE x 0x9E) = .skp x :=
  decodeWord_wordXkk_E (fun w h => by simp [decodeClassE, h]) x

theorem decodeWord_sknp (x : Reg) : decodeWord (wordXkk 0xE x 0xA1) = .sknp x :=
  decodeWord_wordXkk_E (fun w h => by simp [decodeClassE, h]) x

theorem decodeWord_ldVxDt (x : Reg) : decodeWord (wordXkk 0xF x 0x07) = .ldVxDt x :=
  decodeWord_wordXkk_F (fun w h => by simp [decodeClassF, h]) x

theorem decodeWord_ldVxK (x : Reg) : decodeWord (wordXkk 0xF x 0x0A) = .ldVxK x :=
  decodeWord_wordXkk_F (fun w h => by simp [decodeClassF, h]) x

theorem decodeWord_ldDtVx (x : Reg) : decodeWord (wordXkk 0xF x 0x15) = .ldDtVx x :=
  decodeWord_wordXkk_F (fun w h => by simp [decodeClassF, h]) x

theorem decodeWord_ldStVx (x : Reg) : decodeWord (wordXkk 0xF x 0x18) = .ldStVx x :=
  decodeWord_wordXkk_F (fun w h => by simp [decodeClassF, h]) x

end Sys2Proof

namespace Sys2Proof.Machine

/-! ### Frames -/

theorem unchangedExcept_dt_setDt (s : State) (b : Byte) : UnchangedExcept [.dt] s (s.setDt b) := by
  intro e he
  cases e with
  | dt => exact absurd (List.mem_singleton.mpr rfl) he
  | mem | regs => exact fun _ => rfl
  | disp => exact fun _ _ => rfl
  | i | pc | stack | st | dirty | mode | key | draws => rfl

theorem unchangedExcept_st_setSt (s : State) (b : Byte) : UnchangedExcept [.st] s (s.setSt b) := by
  intro e he
  cases e with
  | st => exact absurd (List.mem_singleton.mpr rfl) he
  | mem | regs => exact fun _ => rfl
  | disp => exact fun _ _ => rfl
  | i | pc | stack | dt | dirty | mode | key | draws => rfl

theorem unchangedExcept_key_setKey (s : State) (k : Option KeyCode) : UnchangedExcept [.key] s (s.setKey k) := by
  intro e he
  cases e with
  | key => exact absurd (List.mem_singleton.mpr rfl) he
  | mem | regs => exact fun _ => rfl
  | disp => exact fun _ _ => rfl
  | i | pc | stack | dt | st | dirty | mode | draws => rfl

/-! ### SKP and SKNP (R111, R112) -/

@[simp] theorem keyByte_toNat (k : KeyCode) : (keyByte k).toNat = k.val :=
  byte_ofNat_toNat (Nat.lt_trans k.isLt (by decide))

theorem keyMatches_eq_true_iff (x : Reg) (s : State) :
    keyMatches x s = true ↔ ∃ k : KeyCode, s.key = some k ∧ k.val = (s.reg x).toNat := by
  cases hkey : s.key with
  | none => simp [keyMatches, hkey]
  | some k => simp [keyMatches, hkey, ← BitVec.toNat_inj]

theorem keyMatches_eq_false_iff (x : Reg) (s : State) :
    keyMatches x s = false ↔ ∀ k : KeyCode, s.key = some k → k.val ≠ (s.reg x).toNat := by
  rw [Bool.eq_false_iff, ne_eq, keyMatches_eq_true_iff]
  simp only [not_exists, not_and, ne_eq]

theorem exec_skp (x : Reg) (s : State) : exec (.skp x) s = .next (s.skipIf (keyMatches x s)) := rfl

theorem exec_sknp (x : Reg) (s : State) : exec (.sknp x) s = .next (s.skipIf (!keyMatches x s)) := rfl

/-- Settles O50: both skips turn on the one key test, which compares the latched code with the whole byte. -/
theorem keySkipsTestTheLatch : Obligations.KeySkipsTestTheLatch := by
  intro x
  refine ⟨decodeWord_skp x, decodeWord_sknp x, fun s => ⟨?skp, ?sknp⟩⟩
  case skp =>
    refine ⟨_, exec_skp x s, unchangedExcept_pc_skipIf s _, fun hmatch => ?_, fun hmiss => ?_⟩
    · simp [(keyMatches_eq_true_iff x s).mpr hmatch]
    · simp [(keyMatches_eq_false_iff x s).mpr hmiss]
  case sknp =>
    refine ⟨_, exec_sknp x s, unchangedExcept_pc_skipIf s _, fun hmatch => ?_, fun hmiss => ?_⟩
    · simp [(keyMatches_eq_true_iff x s).mpr hmatch]
    · simp [(keyMatches_eq_false_iff x s).mpr hmiss]

/-! ### The timer transfers (R113, R115, R116) -/

theorem exec_ldVxDt (x : Reg) (s : State) : exec (.ldVxDt x) s = .next (s.setReg x s.dt) := rfl

theorem exec_ldDtVx (x : Reg) (s : State) : exec (.ldDtVx x) s = .next (s.setDt (s.reg x)) := rfl

theorem exec_ldStVx (x : Reg) (s : State) : exec (.ldStVx x) s = .next (s.setSt (s.reg x)) := rfl

/-- Settles O51: each transfer is one write, of `V[x]`, of `DT` or of `ST`. -/
theorem timerTransfersMoveBytes : Obligations.TimerTransfersMoveBytes := by
  intro x
  refine ⟨decodeWord_ldVxDt x, decodeWord_ldDtVx x, decodeWord_ldStVx x, fun s => ⟨?vx, ?dt, ?st⟩⟩
  case vx =>
    exact ⟨_, exec_ldVxDt x s, s.reg_setReg_self x s.dt, regsUnchangedExcept_setReg s x s.dt,
      unchangedExcept_regs_setReg s x s.dt⟩
  case dt => exact ⟨_, exec_ldDtVx x s, rfl, unchangedExcept_dt_setDt s (s.reg x)⟩
  case st => exact ⟨_, exec_ldStVx x s, rfl, unchangedExcept_st_setSt s (s.reg x)⟩

/-! ### LD Vx, K (R114) and the wait it begins (R67, R127, R129) -/

theorem exec_ldVxK_of_key_eq_some (x : Reg) {s : State} {k : KeyCode} (h : s.key = some k) :
    exec (.ldVxK x) s = .next ((s.setReg x (keyByte k)).setKey none) := by
  simp only [exec, execLdVxK, h]

theorem exec_ldVxK_of_key_eq_none (x : Reg) {s : State} (h : s.key = none) :
    exec (.ldVxK x) s = .next (s.setMode (.blocked x)) := by
  simp only [exec, execLdVxK, h]

theorem step_of_blocked {s : State} {x : Reg} (h : s.mode = .blocked x) : step s = .next s := by
  simp only [step, cycleWith, h]

theorem apply_tick_of_blocked {s : State} {x : Reg} (h : s.mode = .blocked x) :
    State.apply .tick s = .next s := by
  simp only [State.apply, tick, h]

/-- A code in range is pressed, whatever the mode. -/
theorem apply_pressKey (k : KeyCode) (s : State) : State.apply (.pressKey k.val) s = .next (pressCode k s) :=
  dif_pos k.isLt

theorem pressCode_of_blocked {s : State} {x : Reg} (k : KeyCode) (h : s.mode = .blocked x) :
    pressCode k s = ((s.setReg x (keyByte k)).setMode .running).setKey none := by
  simp only [pressCode, h]

/-- Settles O52: the latch decides between one write of `V[x]` and a wait; the wait is idle, and a press writes `V[x]`. -/
theorem keyWaitTakesOrBlocks : Obligations.KeyWaitTakesOrBlocks := by
  intro x
  refine ⟨decodeWord_ldVxK x, fun s k hkey => ?takes, fun s hkey => ?waits⟩
  case takes =>
    have hwrite : UnchangedExcept [.regs, .key] s (s.setReg x (keyByte k)) :=
      (unchangedExcept_regs_setReg s x _).mono (by simp)
    have hconsume : UnchangedExcept [.regs, .key] (s.setReg x (keyByte k)) ((s.setReg x (keyByte k)).setKey none) :=
      (unchangedExcept_key_setKey _ none).mono (by simp)
    refine ⟨_, exec_ldVxK_of_key_eq_some x hkey, ?_, rfl, regsUnchangedExcept_setReg s x _, hwrite.trans hconsume⟩
    simp
  case waits =>
    have hblocked : (s.setMode (.blocked x)).mode = .blocked x := rfl
    refine ⟨_, exec_ldVxK_of_key_eq_none x hkey, hblocked, unchangedExcept_mode_setMode s _,
      step_of_blocked hblocked, apply_tick_of_blocked hblocked, fun k => ?_⟩
    refine ⟨_, apply_pressKey k _, ?_⟩
    rw [pressCode_of_blocked k hblocked]
    exact ⟨by simp, rfl, rfl⟩

end Sys2Proof.Machine
end

/-! ## Reset and program loading (70_reset_and_hazards.md) -/

section
namespace Sys2Proof.Machine

/-! ### Frames -/

theorem unchangedExcept_mem_setMem (s : State) (m : Memory) : UnchangedExcept [.mem] s (s.setMem m) := by
  intro e he
  cases e with
  | mem => exact absurd (List.mem_singleton.mpr rfl) he
  | regs => exact fun _ => rfl
  | disp => exact fun _ _ => rfl
  | i | pc | stack | dt | st | dirty | mode | key | draws => rfl

/-! ### Direct stores -/

theorem Memory.read_place_add (m : Memory) (a : Nat) {bytes : List Byte} {j : Nat} (h : j < bytes.length) :
    (Memory.place m a bytes).read (a + j) = bytes[j] := by
  rw [Memory.read_place, if_pos ⟨Nat.le_add_right a j, Nat.add_lt_add_left h a⟩, Nat.add_sub_cancel_left,
    List.getElem?_eq_getElem h, Option.getD_some]

theorem Memory.read_place_of_outside (m : Memory) {a b : Nat} {bytes : List Byte}
    (h : b < a ∨ a + bytes.length ≤ b) : (Memory.place m a bytes).read b = m.read b := by
  have hout : ¬(a ≤ b ∧ b < a + bytes.length) := by omega
  rw [Memory.read_place, if_neg hout]

/-! ### A program image that fits (R142) -/

theorem apply_reset (s : State) : State.apply .reset s = .next (resetCore s) := rfl

theorem loadProgram_of_fits {bytes : List Byte} (h : bytes.length ≤ programRoom) (s : State) :
    loadProgram bytes s = (resetCore s).setMem ((resetCore s).mem.place Config.progBase bytes) :=
  if_pos h

theorem apply_loadProgram_of_fits {bytes : List Byte} (h : bytes.length ≤ programRoom) (s : State) :
    State.apply (.loadProgram bytes) s =
      .next ((resetCore s).setMem ((resetCore s).mem.place Config.progBase bytes)) :=
  congrArg Host.Outcome.next (loadProgram_of_fits h s)

/-- Settles O57: the load is one write of memory over the reset state, and the placed bytes are the image from 0x200. -/
theorem loadProgramCopiesTheImage : Obligations.LoadProgramCopiesTheImage := by
  intro bytes s t hfits hreset
  obtain rfl : resetCore s = t := Host.Outcome.next.inj ((apply_reset s).symm.trans hreset)
  refine ⟨_, apply_loadProgram_of_fits hfits s, unchangedExcept_mem_setMem (resetCore s) _, ?image, ?elsewhere⟩
  case image =>
    intro j hj
    exact Memory.read_place_add _ 0x200 hj
  case elsewhere =>
    intro a ha
    exact Memory.read_place_of_outside _ ha

end Sys2Proof.Machine
end

/-! ## Encoding and decoding (30_encoding.md) -/

section
namespace Sys2Proof

/-! ### The words of the rows not yet decoded above -/

theorem decodeWord_eq_call {w : Word} (h : fieldClass w = 2) : decodeWord w = .call (fieldNnn w) := by
  obtain ⟨hcls, hret⟩ := not_exactWord_of_fieldClass_ne_zero (h.trans_ne (by decide))
  simp only [decodeWord, hcls, hret, if_false, h]

/-- Class 5 is strict about its low nibble (R59). -/
theorem decodeWord_of_fieldClass_eq_5 {w : Word} (h : fieldClass w = 5) :
    decodeWord w = if (fieldN w).val = 0 then .seReg (fieldX w) (fieldY w) else .unknown w := by
  obtain ⟨hcls, hret⟩ := not_exactWord_of_fieldClass_ne_zero (h.trans_ne (by decide))
  simp only [decodeWord, hcls, hret, if_false, h]

/-- Class 9 is strict about its low nibble (R59). -/
theorem decodeWord_of_fieldClass_eq_9 {w : Word} (h : fieldClass w = 9) :
    decodeWord w = if (fieldN w).val = 0 then .sneReg (fieldX w) (fieldY w) else .unknown w := by
  obtain ⟨hcls, hret⟩ := not_exactWord_of_fieldClass_ne_zero (h.trans_ne (by decide))
  simp only [decodeWord, hcls, hret, if_false, h]

theorem decodeWord_eq_rnd {w : Word} (h : fieldClass w = 0xC) : decodeWord w = .rnd (fieldX w) (fieldKk w) := by
  obtain ⟨hcls, hret⟩ := not_exactWord_of_fieldClass_ne_zero (h.trans_ne (by decide))
  simp only [decodeWord, hcls, hret, if_false, h]

theorem decodeWord_eq_drw {w : Word} (h : fieldClass w = 0xD) :
    decodeWord w = .drw (fieldX w) (fieldY w) (fieldN w) := by
  obtain ⟨hcls, hret⟩ := not_exactWord_of_fieldClass_ne_zero (h.trans_ne (by decide))
  simp only [decodeWord, hcls, hret, if_false, h]

theorem decodeWord_call (nnn : Addr) : decodeWord (wordNnn 2 nnn) = .call nnn := by
  rw [decodeWord_eq_call (fieldClass_wordNnn (by decide) nnn), fieldNnn_wordNnn (by decide)]

theorem decodeWord_rnd (x : Reg) (kk : Byte) : decodeWord (wordXkk 0xC x kk) = .rnd x kk := by
  rw [decodeWord_eq_rnd (fieldClass_wordXkk (by decide) x kk), fieldX_wordXkk (by decide), fieldKk_wordXkk (by decide)]

theorem decodeWord_drw (x y : Reg) (n : RowCount) : decodeWord (wordXyn 0xD x y n) = .drw x y n := by
  rw [decodeWord_eq_drw (fieldClass_wordXyn (by decide) x y n), fieldX_wordXyn (by decide), fieldY_wordXyn (by decide),
    fieldN_wordXyn (by decide)]

theorem decodeWord_wordXyn_5 (x y : Reg) (n : RowCount) :
    decodeWord (wordXyn 5 x y n) = if n.val = 0 then .seReg x y else .unknown (wordXyn 5 x y n) := by
  rw [decodeWord_of_fieldClass_eq_5 (fieldClass_wordXyn (by decide) x y n), fieldN_wordXyn (by decide),
    fieldX_wordXyn (by decide), fieldY_wordXyn (by decide)]

theorem decodeWord_wordXyn_9 (x y : Reg) (n : RowCount) :
    decodeWord (wordXyn 9 x y n) = if n.val = 0 then .sneReg x y else .unknown (wordXyn 9 x y n) := by
  rw [decodeWord_of_fieldClass_eq_9 (fieldClass_wordXyn (by decide) x y n), fieldN_wordXyn (by decide),
    fieldX_wordXyn (by decide), fieldY_wordXyn (by decide)]

theorem decodeWord_seReg (x y : Reg) : decodeWord (wordXyn 5 x y 0) = .seReg x y := decodeWord_wordXyn_5 x y 0

theorem decodeWord_sneReg (x y : Reg) : decodeWord (wordXyn 9 x y 0) = .sneReg x y := decodeWord_wordXyn_9 x y 0

theorem decodeWord_sub (x y : Reg) : decodeWord (wordXyn 8 x y 5) = .sub x y :=
  decodeWord_wordXyn_8 (fun w h => by simp [decodeClass8, h]) x y

theorem decodeWord_shr (x y : Reg) : decodeWord (wordXyn 8 x y 6) = .shr x y :=
  decodeWord_wordXyn_8 (fun w h => by simp [decodeClass8, h]) x y

theorem decodeWord_subn (x y : Reg) : decodeWord (wordXyn 8 x y 7) = .subn x y :=
  decodeWord_wordXyn_8 (fun w h => by simp [decodeClass8, h]) x y

theorem decodeWord_shl (x y : Reg) : decodeWord (wordXyn 8 x y 0xE) = .shl x y :=
  decodeWord_wordXyn_8 (fun w h => by simp [decodeClass8, h]) x y

theorem decodeWord_addIVx (x : Reg) : decodeWord (wordXkk 0xF x 0x1E) = .addIVx x :=
  decodeWord_wordXkk_F (fun w h => by simp [decodeClassF, h]) x

theorem decodeWord_ldFVx (x : Reg) : decodeWord (wordXkk 0xF x 0x29) = .ldFVx x :=
  decodeWord_wordXkk_F (fun w h => by simp [decodeClassF, h]) x

theorem decodeWord_ldBVx (x : Reg) : decodeWord (wordXkk 0xF x 0x33) = .ldBVx x :=
  decodeWord_wordXkk_F (fun w h => by simp [decodeClassF, h]) x

theorem decodeWord_ldMemVx (x : Reg) : decodeWord (wordXkk 0xF x 0x55) = .ldMemVx x :=
  decodeWord_wordXkk_F (fun w h => by simp [decodeClassF, h]) x

theorem decodeWord_ldVxMem (x : Reg) : decodeWord (wordXkk 0xF x 0x65) = .ldVxMem x :=
  decodeWord_wordXkk_F (fun w h => by simp [decodeClassF, h]) x

/-! ### A word is made of its fields -/

theorem wordNnn_fields {w : Word} {c : Nat} (h : fieldClass w = c) : wordNnn c (fieldNnn w) = w := by
  have hw := w.isLt
  apply BitVec.eq_of_toNat_eq
  subst h
  simp only [wordNnn, fieldNnn, fieldClass, BitVec.toNat_ofNat]
  omega

theorem wordXkk_fields {w : Word} {c : Nat} {kk : Byte} (h : fieldClass w = c) (hkk : fieldKk w = kk) :
    wordXkk c (fieldX w) kk = w := by
  have hw := w.isLt
  apply BitVec.eq_of_toNat_eq
  subst h hkk
  simp only [wordXkk, fieldX, fieldKk, fieldClass, BitVec.toNat_ofNat]
  omega

theorem wordXyn_fields {w : Word} {c : Nat} {n : RowCount} (h : fieldClass w = c) (hn : fieldN w = n) :
    wordXyn c (fieldX w) (fieldY w) n = w := by
  have hw := w.isLt
  apply BitVec.eq_of_toNat_eq
  subst h hn
  simp only [wordXyn, fieldX, fieldY, fieldN, fieldClass, BitVec.toNat_ofNat]
  omega

theorem encode_decodeClass8 {w : Word} (h : fieldClass w = 8) : encode (decodeClass8 w) = w := by
  unfold decodeClass8
  split
  case h_10 => rfl
  all_goals exact wordXyn_fields h (Fin.ext ‹_›)

theorem encode_decodeClassE {w : Word} (h : fieldClass w = 0xE) : encode (decodeClassE w) = w := by
  unfold decodeClassE
  split
  case h_3 => rfl
  all_goals exact wordXkk_fields h (BitVec.eq_of_toNat_eq ‹_›)

theorem encode_decodeClassF {w : Word} (h : fieldClass w = 0xF) : encode (decodeClassF w) = w := by
  unfold decodeClassF
  split
  case h_10 => rfl
  all_goals exact wordXkk_fields h (BitVec.eq_of_toNat_eq ‹_›)

/-- Settles O2: in every arm of the decoder the class and the sub-opcode tested are those the encoder writes back. -/
theorem encodeDecodeRoundTrip : Obligations.EncodeDecodeRoundTrip := by
  intro w
  unfold decodeWord
  split
  · exact Eq.symm ‹_›
  split
  · exact Eq.symm ‹_›
  split
  case h_1 | h_2 | h_10 | h_11 => exact wordNnn_fields ‹_›
  case h_3 | h_4 | h_6 | h_7 | h_12 => exact wordXkk_fields ‹_› rfl
  case h_5 | h_9 =>
    split
    · exact wordXyn_fields ‹_› (Fin.ext ‹_›)
    · rfl
  case h_8 => exact encode_decodeClass8 ‹_›
  case h_13 => exact wordXyn_fields ‹_› rfl
  case h_14 => exact encode_decodeClassE ‹_›
  case h_15 => exact encode_decodeClassF ‹_›
  case h_16 => rfl

/-! ### UNKNOWN and the opcode table (R61, R62) -/

theorem decodeWord_eq_unknown_of_isUnknown {w : Word} (h : Machine.isUnknown (decodeWord w) = true) :
    decodeWord w = .unknown w := by
  have hround : encode (decodeWord w) = w := encodeDecodeRoundTrip w
  cases hi : decodeWord w with
  | unknown v =>
    rw [hi] at hround
    exact congrArg Instr.unknown hround
  | _ => simp [hi, Machine.isUnknown] at h

theorem Laws.EncodeFitsTable.rowOf_covers_encode (i : Instr) : Laws.EncodeFitsTable.Statement i := by
  cases i with
  | cls => exact Laws.EncodeFitsTable.cls
  | ret => exact Laws.EncodeFitsTable.ret
  | jp nnn => exact Laws.EncodeFitsTable.jp nnn
  | call nnn => exact Laws.EncodeFitsTable.call nnn
  | seImm x kk => exact Laws.EncodeFitsTable.seImm x kk
  | sneImm x kk => exact Laws.EncodeFitsTable.sneImm x kk
  | seReg x y => exact Laws.EncodeFitsTable.seReg x y
  | ldImm x kk => exact Laws.EncodeFitsTable.ldImm x kk
  | addImm x kk => exact Laws.EncodeFitsTable.addImm x kk
  | ldReg x y => exact Laws.EncodeFitsTable.ldReg x y
  | orReg x y => exact Laws.EncodeFitsTable.orReg x y
  | andReg x y => exact Laws.EncodeFitsTable.andReg x y
  | xorReg x y => exact Laws.EncodeFitsTable.xorReg x y
  | addReg x y => exact Laws.EncodeFitsTable.addReg x y
  | sub x y => exact Laws.EncodeFitsTable.sub x y
  | shr x y => exact Laws.EncodeFitsTable.shr x y
  | subn x y => exact Laws.EncodeFitsTable.subn x y
  | shl x y => exact Laws.EncodeFitsTable.shl x y
  | sneReg x y => exact Laws.EncodeFitsTable.sneReg x y
  | ldI nnn => exact Laws.EncodeFitsTable.ldI nnn
  | jpV0 nnn => exact Laws.EncodeFitsTable.jpV0 nnn
  | rnd x kk => exact Laws.EncodeFitsTable.rnd x kk
  | drw x y n => exact Laws.EncodeFitsTable.drw x y n
  | skp x => exact Laws.EncodeFitsTable.skp x
  | sknp x => exact Laws.EncodeFitsTable.sknp x
  | ldVxDt x => exact Laws.EncodeFitsTable.ldVxDt x
  | ldVxK x => exact Laws.EncodeFitsTable.ldVxK x
  | ldDtVx x => exact Laws.EncodeFitsTable.ldDtVx x
  | ldStVx x => exact Laws.EncodeFitsTable.ldStVx x
  | addIVx x => exact Laws.EncodeFitsTable.addIVx x
  | ldFVx x => exact Laws.EncodeFitsTable.ldFVx x
  | ldBVx x => exact Laws.EncodeFitsTable.ldBVx x
  | ldMemVx x => exact Laws.EncodeFitsTable.ldMemVx x
  | ldVxMem x => exact Laws.EncodeFitsTable.ldVxMem x
  | unknown w => exact Laws.EncodeFitsTable.unknown w

/-- Every instruction but UNKNOWN has its row among the 34. -/
theorem Laws.EncodeFitsTable.rowOf_mem_tableRows {i : Instr} (h : Machine.isUnknown i = false) :
    Laws.EncodeFitsTable.rowOf i ∈ tableRows := by
  cases i with
  | unknown w => cases h
  | _ => simp [Laws.EncodeFitsTable.rowOf, tableRows, tableRowsLow, tableRowsMid, tableRowsHigh]

theorem recognised_of_isUnknown_eq_false {w : Word} (h : Machine.isUnknown (decodeWord w) = false) :
    recognised w = true := by
  have hcovers : (Laws.EncodeFitsTable.rowOf (decodeWord w)).covers (encode (decodeWord w)) = true :=
    Laws.EncodeFitsTable.rowOf_covers_encode (decodeWord w)
  rw [encodeDecodeRoundTrip w] at hcovers
  exact List.any_eq_true.mpr ⟨_, Laws.EncodeFitsTable.rowOf_mem_tableRows h, hcovers⟩


/-- What each mask tests, in the fields the decoder tests. -/
theorem covers_class_iff (p w : Word) :
    (TableRow.mk p 0xF000).covers w = true ↔ fieldClass w = p.toNat / 4096 ∧ p.toNat % 4096 = 0 := by
  rw [covers_class, fieldClass]
  omega

theorem covers_class_nibble_iff (p w : Word) :
    (TableRow.mk p 0xF00F).covers w = true ↔ fieldClass w = p.toNat / 4096 ∧ (fieldN w).val = p.toNat % 4096 := by
  simp only [covers_class_nibble, fieldClass, fieldN]
  omega

theorem covers_class_byte_iff (p w : Word) :
    (TableRow.mk p 0xF0FF).covers w = true ↔ fieldClass w = p.toNat / 4096 ∧ (fieldKk w).toNat = p.toNat % 4096 := by
  rw [covers_class_byte, fieldClass, fieldKk, BitVec.toNat_ofNat]
  omega

/-- Every row of the table is an arm of the decoder: the arms that answer UNKNOWN are those whose class and sub-opcode
no row has. -/
theorem isUnknown_eq_false_of_recognised {w : Word} (h : recognised w = true) :
    Machine.isUnknown (decodeWord w) = false := by
  simp only [recognised, tableRows, tableRowsLow, tableRowsMid, tableRowsHigh, List.cons_append, List.nil_append,
    List.any_cons, List.any_nil, Bool.or_eq_true, Bool.false_eq_true, or_false, covers_class_iff,
    covers_class_nibble_iff, covers_class_byte_iff, covers_exact, BitVec.reduceToNat, Nat.reduceDiv, Nat.reduceMod,
    and_true] at h
  rcases h with rfl | rfl | h
  · decide
  · decide
  -- In each UNKNOWN arm no disjunct of `h` has the class and sub-opcode that led there.
  unfold decodeWord
  split
  · rfl
  split
  · rfl
  split
  case h_5 | h_9 =>
    split
    · rfl
    · omega
  case h_8 =>
    unfold decodeClass8
    split
    case h_10 => simp_all
    all_goals rfl
  case h_14 =>
    unfold decodeClassE
    split
    case h_3 => simp_all
    all_goals rfl
  case h_15 =>
    unfold decodeClassF
    split
    case h_10 => simp_all
    all_goals rfl
  case h_16 => simp_all
  all_goals rfl

/-- Settles O3: the row of the instruction decoded covers the word that it encodes back to, and a covered word has the
class and sub-opcode of an arm of the decoder. -/
theorem unknownExactlyOutsideTheTable : Obligations.UnknownExactlyOutsideTheTable := by
  intro w
  constructor
  · intro hunknown
    rw [Bool.eq_false_iff]
    intro hrec
    have hknown := isUnknown_eq_false_of_recognised hrec
    rw [hunknown] at hknown
    cases hknown
  · intro hrec
    apply decodeWord_eq_unknown_of_isUnknown
    rw [← Bool.not_eq_false]
    intro hknown
    exact Bool.false_ne_true (hrec.symm.trans (recognised_of_isUnknown_eq_false hknown))

/-! ### The round trip from an instruction -/

theorem decodeWord_encode {i : Instr} (h : i.wellFormed = true) : decodeWord (encode i) = i := by
  cases i with
  | cls | ret => decide
  | jp nnn => exact decodeWord_jp nnn
  | call nnn => exact decodeWord_call nnn
  | seImm x kk => exact decodeWord_seImm x kk
  | sneImm x kk => exact decodeWord_sneImm x kk
  | seReg x y => exact decodeWord_seReg x y
  | ldImm x kk => exact decodeWord_ldImm x kk
  | addImm x kk => exact decodeWord_addImm x kk
  | ldReg x y => exact decodeWord_ldReg x y
  | orReg x y => exact decodeWord_orReg x y
  | andReg x y => exact decodeWord_andReg x y
  | xorReg x y => exact decodeWord_xorReg x y
  | addReg x y => exact decodeWord_addReg x y
  | sub x y => exact decodeWord_sub x y
  | shr x y => exact decodeWord_shr x y
  | subn x y => exact decodeWord_subn x y
  | shl x y => exact decodeWord_shl x y
  | sneReg x y => exact decodeWord_sneReg x y
  | ldI nnn => exact decodeWord_ldI nnn
  | jpV0 nnn => exact decodeWord_jpV0 nnn
  | rnd x kk => exact decodeWord_rnd x kk
  | drw x y n => exact decodeWord_drw x y n
  | skp x => exact decodeWord_skp x
  | sknp x => exact decodeWord_sknp x
  | ldVxDt x => exact decodeWord_ldVxDt x
  | ldVxK x => exact decodeWord_ldVxK x
  | ldDtVx x => exact decodeWord_ldDtVx x
  | ldStVx x => exact decodeWord_ldStVx x
  | addIVx x => exact decodeWord_addIVx x
  | ldFVx x => exact decodeWord_ldFVx x
  | ldBVx x => exact decodeWord_ldBVx x
  | ldMemVx x => exact decodeWord_ldMemVx x
  | ldVxMem x => exact decodeWord_ldVxMem x
  | unknown w => exact (unknownExactlyOutsideTheTable w).mpr (by simpa [Instr.wellFormed] using h)

/-- The byte decoder reads the word that the two bytes of an instruction make, and leaves the rest of the stream. -/
theorem decode_encodeBytes_append (i : Instr) (rest : List Byte) :
    decode (encodeBytes i ++ rest) = .ok (decodeWord (encode i), rest) := by
  simp only [encodeBytes, List.cons_append, List.nil_append, decode, wordOfBytes_high_low]

/-- Settles O1: one word lemma per constructor, and the bytes of a word make the word again. -/
theorem decodeEncodeRoundTrip : Obligations.DecodeEncodeRoundTrip := by
  intro i rest hwf
  have hword : decodeWord (encode i) = i := decodeWord_encode hwf
  exact ⟨hword, by rw [decode_encodeBytes_append, hword]⟩

/-- Settles O4: each of the fourteen words is decoded by evaluation. -/
theorem exampleWordsDecode : Obligations.ExampleWordsDecode := by
  unfold Obligations.ExampleWordsDecode
  decide

end Sys2Proof
end

/-! ## What every instruction answers and writes -/

section
namespace Sys2Proof.Machine

/-! ### Frames, put together -/

theorem UnchangedExcept.append {es fs : List Element} {s t u : State} (hst : UnchangedExcept es s t)
    (htu : UnchangedExcept fs t u) : UnchangedExcept (es ++ fs) s u :=
  (hst.mono (List.subset_append_left es fs)).trans (htu.mono (List.subset_append_right es fs))

theorem UnchangedExcept.regsUnchangedExcept {es : List Element} {s t : State} (h : UnchangedExcept es s t)
    (hregs : Element.regs ∉ es) (rs : List Reg) : RegsUnchangedExcept rs s t :=
  fun r _ => h .regs hregs r

theorem unchangedExcept_draws_setDraws (s : State) (n : Nat) : UnchangedExcept [.draws] s (s.setDraws n) := by
  intro e he
  cases e with
  | draws => exact absurd (List.mem_singleton.mpr rfl) he
  | mem | regs => exact fun _ => rfl
  | disp => exact fun _ _ => rfl
  | i | pc | stack | dt | st | dirty | mode | key => rfl

theorem unchangedExcept_regs_setRegsFrom (s : State) (r : Nat) (bytes : List Byte) :
    UnchangedExcept [.regs] s (s.setRegsFrom r bytes) := by
  obtain ⟨hmem, hi, hpc, hstack, hdt, hst, hdisp, hdirty, hmode, hkey, hdraws⟩ := s.setRegsFrom_frame r bytes
  intro e he
  cases e with
  | regs => exact absurd (List.mem_singleton.mpr rfl) he
  | mem => exact fun a => congrArg (Memory.read · a) hmem
  | disp => exact fun r c => congrArg (Display.pixel · r c) hdisp
  | i => exact hi
  | pc => exact hpc
  | stack => exact hstack
  | dt => exact hdt
  | st => exact hst
  | dirty => exact hdirty
  | mode => exact hmode
  | key => exact hkey
  | draws => exact hdraws

/-! ### Stores of byte sequences, as a function of memory alone -/

/-- Memory after a store of consecutive bytes from `a` up, without those that `FONT_WRITE` discards. -/
def Memory.storeFrom (m : Memory) (a : Nat) : List Byte → Memory
  | [] => m
  | b :: rest => Memory.storeFrom (if storable a then m.write a b else m) (a + 1) rest

theorem storeBytes_eq_storeFrom {a : Nat} {bytes : List Byte} (s : State) (h : a + bytes.length ≤ Config.memSize) :
    storeBytes a bytes s = .next (s.setMem (s.mem.storeFrom a bytes)) := by
  induction bytes generalizing a s with
  | nil => rfl
  | cons b rest ih =>
    rw [List.length_cons] at h
    rw [storeBytes, memWrite_of_lt b s (by omega), andThen_next, ih _ (by omega), Memory.storeFrom]
    split <;> rfl

/-- What `storeBytes_of_fits` says of the memory after the store. -/
theorem Memory.storeFrom_of_fits (m : Memory) {a : Nat} {bytes : List Byte}
    (h : a + bytes.length ≤ Config.memSize) :
    (m.wf = true → (m.storeFrom a bytes).wf = true) ∧
    ∀ b : Nat, (m.storeFrom a bytes).read b =
      if a ≤ b ∧ b < a + bytes.length ∧ storable b = true then bytes[b - a]?.getD 0 else m.read b := by
  obtain ⟨k, hstore, hwf, hread⟩ := storeBytes_of_fits (State.reset.setMem m) h
  rw [storeBytes_eq_storeFrom _ h] at hstore
  obtain rfl : m.storeFrom a bytes = k := congrArg State.mem (Host.Outcome.next.inj hstore)
  exact ⟨hwf, hread⟩

/-! ### The instructions whose effect depends on the state, an equation per case -/

theorem exec_addIVx_of_indexOverflows {x : Reg} {s : State} (h : indexOverflows (indexSum x s) = true) :
    exec (.addIVx x) s = .next ((s.setI (BitVec.ofNat 16 (indexSum x s))).setVF (flagByte true)) := by
  simp only [exec, execAddIVx, h, if_true]

theorem exec_addIVx_of_indexOverflows_eq_false {x : Reg} {s : State} (h : indexOverflows (indexSum x s) = false) :
    exec (.addIVx x) s = .next (s.setI (BitVec.ofNat 16 (indexSum x s))) := by
  simp only [exec, execAddIVx, h, Bool.false_eq_true, if_false]

/-- The four instructions that access memory halt with nothing done when they would leave it (20_memory.md R43). -/
theorem exec_of_boundsFail {i : Instr} {s : State} (h : boundsFail i s = true) :
    exec i s = .next (s.setMode (.halted .invalidMemoryAccess)) := by
  cases i with
  | drw x y n => exact if_pos (of_decide_eq_true h)
  | ldBVx x | ldMemVx x | ldVxMem x => exact if_pos (of_decide_eq_true h)
  | _ => cases h

theorem exec_ldBVx_of_fits {x : Reg} {s : State} (h : s.i.toNat + 2 < Config.memSize) :
    exec (.ldBVx x) s = .next (s.setMem (s.mem.storeFrom s.i.toNat
      [hundreds (s.reg x), tens (s.reg x), ones (s.reg x)])) := by
  rw [exec, execLdBVx, if_neg (Nat.not_le.mpr h)]
  exact storeBytes_eq_storeFrom s h

theorem exec_ldMemVx_of_fits {x : Reg} {s : State} (h : s.i.toNat + x.val < Config.memSize) :
    exec (.ldMemVx x) s = .next (s.setMem (s.mem.storeFrom s.i.toNat (s.regsUpTo x))) := by
  rw [exec, execLdMemVx, if_neg (Nat.not_le.mpr h)]
  exact storeBytes_eq_storeFrom s (by rw [State.regsUpTo_length]; exact h)

/-- The bytes a block load reads. -/
def blockBytes (x : Reg) (s : State) : List Byte := (List.range (x.val + 1)).map fun j => s.mem.read (s.i.toNat + j)

theorem exec_ldVxMem_of_fits {x : Reg} {s : State} (h : s.i.toNat + x.val < Config.memSize) :
    exec (.ldVxMem x) s = .next (s.setRegsFrom 0 (blockBytes x s)) := by
  rw [exec, execLdVxMem, if_neg (Nat.not_le.mpr h), loadBytes_of_fits s h, andThen_next, blockBytes]

/-! ### The effect of every instruction -/

/-- The next state of every instruction, by cases: `exec_eq_next_iff` says that these are all. -/
inductive Effect (s : State) : Instr → State → Prop where
  | cls : Effect s .cls ((s.setDisp Display.blank).setDirty true)
  | underflow (empty : s.stack = []) : Effect s .ret (s.setMode (.halted .stackUnderflow))
  | ret (below : List Word) (a : Word) (top : s.stack = below ++ [a]) : Effect s .ret ((s.setStack below).setPc a)
  | jp (nnn : Addr) : Effect s (.jp nnn) (s.setPc (addrOperand nnn))
  | call (nnn : Addr) : Effect s (.call nnn) ((s.push s.pc).setPc (addrOperand nnn))
  | seImm (x : Reg) (kk : Byte) : Effect s (.seImm x kk) (s.skipIf (s.reg x == kk))
  | sneImm (x : Reg) (kk : Byte) : Effect s (.sneImm x kk) (s.skipIf (s.reg x != kk))
  | seReg (x y : Reg) : Effect s (.seReg x y) (s.skipIf (s.reg x == s.reg y))
  | ldImm (x : Reg) (kk : Byte) : Effect s (.ldImm x kk) (s.setReg x kk)
  | addImm (x : Reg) (kk : Byte) : Effect s (.addImm x kk) (s.setReg x (s.reg x + kk))
  | ldReg (x y : Reg) : Effect s (.ldReg x y) (s.setReg x (s.reg y))
  | orReg (x y : Reg) : Effect s (.orReg x y) (s.setReg x (s.reg x ||| s.reg y))
  | andReg (x y : Reg) : Effect s (.andReg x y) (s.setReg x (s.reg x &&& s.reg y))
  | xorReg (x y : Reg) : Effect s (.xorReg x y) (s.setReg x (s.reg x ^^^ s.reg y))
  | addReg (x y : Reg) :
      Effect s (.addReg x y) ((s.setVF (carryFlag (s.reg x) (s.reg y))).setReg x (s.reg x + s.reg y))
  | sub (x y : Reg) : Effect s (.sub x y) ((s.setVF (greaterFlag (s.reg x) (s.reg y))).setReg x
      ((s.setVF (greaterFlag (s.reg x) (s.reg y))).reg x - (s.setVF (greaterFlag (s.reg x) (s.reg y))).reg y))
  | shr (x y : Reg) : Effect s (.shr x y)
      ((s.setVF (lowBitFlag (s.reg x))).setReg x ((s.setVF (lowBitFlag (s.reg x))).reg x >>> 1))
  | subn (x y : Reg) : Effect s (.subn x y) ((s.setVF (greaterFlag (s.reg y) (s.reg x))).setReg x
      ((s.setVF (greaterFlag (s.reg y) (s.reg x))).reg y - (s.setVF (greaterFlag (s.reg y) (s.reg x))).reg x))
  | shl (x y : Reg) : Effect s (.shl x y)
      ((s.setVF (highBitFlag (s.reg x))).setReg x ((s.setVF (highBitFlag (s.reg x))).reg x <<< 1))
  | sneReg (x y : Reg) : Effect s (.sneReg x y) (s.skipIf (s.reg x != s.reg y))
  | ldI (nnn : Addr) : Effect s (.ldI nnn) (s.setI (addrOperand nnn))
  | jpV0 (nnn : Addr) : Effect s (.jpV0 nnn) (s.setPc (computedTarget nnn s))
  | rnd (x : Reg) (kk : Byte) :
      Effect s (.rnd x kk) ((s.setReg x (Config.randomByte s.draws &&& kk)).setDraws (s.draws + 1))
  | drw (x : Reg) {y : Reg} {n : RowCount} (completes : drawHalts y n s = false) : Effect s (.drw x y n)
      (((s.setDisp (drawnCanvas x y n s).disp).setVF (collisionFlag (drawnCanvas x y n s).hit)).setDirty true)
  | skp (x : Reg) : Effect s (.skp x) (s.skipIf (keyMatches x s))
  | sknp (x : Reg) : Effect s (.sknp x) (s.skipIf (!keyMatches x s))
  | ldVxDt (x : Reg) : Effect s (.ldVxDt x) (s.setReg x s.dt)
  | takesKey (x : Reg) {k : KeyCode} (latched : s.key = some k) :
      Effect s (.ldVxK x) ((s.setReg x (keyByte k)).setKey none)
  | waits (x : Reg) (noKey : s.key = none) : Effect s (.ldVxK x) (s.setMode (.blocked x))
  | ldDtVx (x : Reg) : Effect s (.ldDtVx x) (s.setDt (s.reg x))
  | ldStVx (x : Reg) : Effect s (.ldStVx x) (s.setSt (s.reg x))
  | addIVx (x : Reg) (inside : indexOverflows (indexSum x s) = false) :
      Effect s (.addIVx x) (s.setI (BitVec.ofNat 16 (indexSum x s)))
  | addIVxFlag (x : Reg) (above : indexOverflows (indexSum x s) = true) :
      Effect s (.addIVx x) ((s.setI (BitVec.ofNat 16 (indexSum x s))).setVF (flagByte true))
  | ldFVx (x : Reg) : Effect s (.ldFVx x) (s.setI (glyphAddress x s))
  | ldBVx (x : Reg) (fits : s.i.toNat + 2 < Config.memSize) : Effect s (.ldBVx x)
      (s.setMem (s.mem.storeFrom s.i.toNat [hundreds (s.reg x), tens (s.reg x), ones (s.reg x)]))
  | ldMemVx (x : Reg) (fits : s.i.toNat + x.val < Config.memSize) :
      Effect s (.ldMemVx x) (s.setMem (s.mem.storeFrom s.i.toNat (s.regsUpTo x)))
  | ldVxMem (x : Reg) (fits : s.i.toNat + x.val < Config.memSize) :
      Effect s (.ldVxMem x) (s.setRegsFrom 0 (blockBytes x s))
  | unknown (w : Word) : Effect s (.unknown w) s
  | outOfBounds {i : Instr} (fails : boundsFail i s = true) : Effect s i (s.setMode (.halted .invalidMemoryAccess))

theorem Effect.exec_eq {s : State} {i : Instr} {t : State} (h : Effect s i t) : exec i s = .next t := by
  cases h with
  | underflow hempty => exact exec_ret_of_stack_eq_nil hempty
  | ret below a htop => exact exec_ret_of_stack_eq_append htop
  | drw x hcompletes => exact exec_drw_of_drawHalts_eq_false x hcompletes
  | takesKey x hkey => exact exec_ldVxK_of_key_eq_some x hkey
  | waits x hkey => exact exec_ldVxK_of_key_eq_none x hkey
  | addIVx x hinside => exact exec_addIVx_of_indexOverflows_eq_false hinside
  | addIVxFlag x habove => exact exec_addIVx_of_indexOverflows habove
  | ldBVx x hfits => exact exec_ldBVx_of_fits hfits
  | ldMemVx x hfits => exact exec_ldMemVx_of_fits hfits
  | ldVxMem x hfits => exact exec_ldVxMem_of_fits hfits
  | outOfBounds hfails => exact exec_of_boundsFail hfails
  | _ => rfl

theorem exists_effect (i : Instr) (s : State) : ∃ t : State, Effect s i t := by
  cases hb : boundsFail i s with
  | true => exact ⟨_, .outOfBounds hb⟩
  | false =>
    cases i with
    | ret =>
      rcases List.eq_nil_or_concat' s.stack with hempty | ⟨below, a, htop⟩
      · exact ⟨_, .underflow hempty⟩
      · exact ⟨_, .ret below a htop⟩
    | ldVxK x =>
      cases hkey : s.key with
      | none => exact ⟨_, .waits x hkey⟩
      | some k => exact ⟨_, .takesKey x hkey⟩
    | addIVx x =>
      cases hsum : indexOverflows (indexSum x s) with
      | false => exact ⟨_, .addIVx x hsum⟩
      | true => exact ⟨_, .addIVxFlag x hsum⟩
    | drw x y n => exact ⟨_, .drw x hb⟩
    | ldBVx x => exact ⟨_, .ldBVx x (Nat.lt_of_not_le (of_decide_eq_false hb))⟩
    | ldMemVx x => exact ⟨_, .ldMemVx x (Nat.lt_of_not_le (of_decide_eq_false hb))⟩
    | ldVxMem x => exact ⟨_, .ldVxMem x (Nat.lt_of_not_le (of_decide_eq_false hb))⟩
    | _ => exact ⟨_, by constructor⟩

theorem exec_eq_next_iff {i : Instr} {s t : State} : exec i s = .next t ↔ Effect s i t := by
  refine ⟨fun h => ?_, Effect.exec_eq⟩
  obtain ⟨u, hu⟩ := exists_effect i s
  obtain rfl : u = t := Host.Outcome.next.inj (hu.exec_eq.symm.trans h)
  exact hu

/-! ### Every instruction answers a next state -/

theorem exec_answers (i : Instr) (s : State) : ∃ t : State, exec i s = .next t := by
  obtain ⟨t, ht⟩ := exists_effect i s
  exact ⟨t, ht.exec_eq⟩

theorem step_of_not_running {s : State} (h : s.mode ≠ .running) : step s = .next s := by
  cases hmode : s.mode with
  | running => exact absurd hmode h
  | blocked x => exact step_of_blocked hmode
  | halted reason => simp only [step, cycleWith, hmode]

theorem cycleWith_of_not_running {limit : Nat} {run : Instr → State → Host.Outcome State Fault Refusal} {s : State}
    (h : s.mode ≠ .running) : cycleWith limit run s = .next s := by
  cases hmode : s.mode with
  | running => exact absurd hmode h
  | blocked x => simp only [cycleWith, hmode]
  | halted reason => simp only [cycleWith, hmode]

theorem cycleWith_answers {limit : Nat} (hlimit : limit ≤ 4095) (s : State) :
    ∃ t : State, cycleWith limit exec s = .next t := by
  by_cases hrun : s.mode = .running
  · rcases Nat.lt_or_ge s.pc.toNat limit with hpc | hpc
    · rw [cycleWith_of_fetches hlimit hrun hpc]
      exact exec_answers _ _
    · exact ⟨_, cycleWith_of_limit_le hrun hpc⟩
  · exact ⟨_, cycleWith_of_not_running hrun⟩

/-- Settles O9: every access an instruction makes comes after the check of its highest address, and the fetch of a cycle
after the fetch check. -/
theorem everyCycleAnswersANextState : Obligations.EveryCycleAnswersANextState :=
  ⟨exec_answers, cycleWith_answers (by decide), cycleWith_answers (by decide)⟩

/-! ### The frame of every instruction (10_state.md sections 2 to 8) -/

theorem mode_mem_writes_of_boundsFail {i : Instr} {s : State} (h : boundsFail i s = true) :
    Element.mode ∈ i.writes := by
  cases i with
  | drw x y n => simp [Instr.writes]
  | ldBVx x | ldMemVx x | ldVxMem x => simp [Instr.writes]
  | _ => cases h

theorem Effect.unchangedExcept {s : State} {i : Instr} {t : State} (h : Effect s i t) :
    UnchangedExcept i.writes s t := by
  cases h with
  | cls => exact (unchangedExcept_disp_setDisp s _).append (unchangedExcept_dirty_setDirty _ true)
  | underflow => exact (unchangedExcept_mode_setMode s _).mono (by simp [Instr.writes])
  | ret below a =>
    exact ((unchangedExcept_stack_setStack s below).append (unchangedExcept_pc_setPc _ a)).mono
      (by simp [Instr.writes])
  | jp | jpV0 => exact unchangedExcept_pc_setPc s _
  | call nnn =>
    exact ((unchangedExcept_stack_setStack s _).append (unchangedExcept_pc_setPc _ _)).mono (by simp [Instr.writes])
  | seImm | sneImm | seReg | sneReg | skp | sknp => exact unchangedExcept_pc_skipIf s _
  | ldImm | addImm | ldReg | orReg | andReg | xorReg | ldVxDt => exact unchangedExcept_regs_setReg s _ _
  | addReg | sub | shr | subn | shl => exact unchangedExcept_regs_setVF_setReg s _ _ _
  | rnd => exact (unchangedExcept_regs_setReg s _ _).append (unchangedExcept_draws_setDraws _ _)
  | ldI | ldFVx => exact unchangedExcept_i_setI s _
  | addIVx => exact (unchangedExcept_i_setI s _).mono (by simp [Instr.writes])
  | addIVxFlag => exact (unchangedExcept_i_setI s _).append (unchangedExcept_regs_setReg _ regF _)
  | drw =>
    exact (((unchangedExcept_disp_setDisp s _).append (unchangedExcept_regs_setReg _ regF _)).append
      (unchangedExcept_dirty_setDirty _ true)).mono (by simp [Instr.writes])
  | takesKey =>
    exact ((unchangedExcept_regs_setReg s _ _).append (unchangedExcept_key_setKey _ none)).mono
      (by simp [Instr.writes])
  | waits => exact (unchangedExcept_mode_setMode s _).mono (by simp [Instr.writes])
  | ldDtVx => exact unchangedExcept_dt_setDt s _
  | ldStVx => exact unchangedExcept_st_setSt s _
  | ldBVx | ldMemVx => exact (unchangedExcept_mem_setMem s _).mono (by simp [Instr.writes])
  | ldVxMem => exact (unchangedExcept_regs_setRegsFrom s 0 _).mono (by simp [Instr.writes])
  | unknown => exact UnchangedExcept.refl _ _
  | outOfBounds hfails =>
    exact (unchangedExcept_mode_setMode s _).mono (by simpa using mode_mem_writes_of_boundsFail hfails)

/-! ### The registers every instruction writes (R17) -/

@[simp] theorem blockBytes_length (x : Reg) (s : State) : (blockBytes x s).length = x.val + 1 := by
  rw [blockBytes, List.length_map, List.length_range]

theorem blockBytes_getElem? {x q : Reg} (s : State) (h : q ≤ x) :
    (blockBytes x s)[q.val]? = some (s.mem.read (s.i.toNat + q.val)) := by
  have hq : q.val < x.val + 1 := Nat.lt_succ_of_le h
  simp [blockBytes, hq]

/-- A register after a block load. -/
theorem reg_setRegsFrom_blockBytes (s u : State) (x r : Reg) :
    (u.setRegsFrom 0 (blockBytes x s)).reg r = if r ≤ x then s.mem.read (s.i.toNat + r.val) else u.reg r := by
  rw [State.setRegsFrom_reg, blockBytes_length]
  by_cases h : r ≤ x
  · have hin : 0 ≤ r.val ∧ r.val < 0 + (x.val + 1) := ⟨Nat.zero_le _, by have := Fin.le_def.mp h; omega⟩
    rw [if_pos hin, if_pos h, Nat.sub_zero, blockBytes_getElem? s h, Option.getD_some]
  · have hout : ¬(0 ≤ r.val ∧ r.val < 0 + (x.val + 1)) := by have := mt Fin.le_def.mpr h; omega
    rw [if_neg hout, if_neg h]

theorem Effect.regsUnchangedExcept {s : State} {i : Instr} {t : State} (h : Effect s i t) :
    RegsUnchangedExcept i.regsWritten s t := by
  have hframe : UnchangedExcept i.writes s t := h.unchangedExcept
  cases h with
  | ldImm | addImm | ldReg | orReg | andReg | xorReg | rnd | ldVxDt | takesKey =>
    exact regsUnchangedExcept_setReg s _ _
  | addReg | sub | shr | subn | shl => exact regsUnchangedExcept_setVF_setReg s _ _ _
  | addIVx | waits | outOfBounds => exact fun _ _ => rfl
  | addIVxFlag => exact regsUnchangedExcept_setReg (s.setI _) regF _
  | drw => exact regsUnchangedExcept_setReg (s.setDisp _) regF _
  | ldVxMem x =>
    intro r hr
    have hout : ¬r ≤ x := by simpa [Instr.regsWritten] using hr
    rw [reg_setRegsFrom_blockBytes, if_neg hout]
  | _ => exact hframe.regsUnchangedExcept (by simp [Instr.writes]) _

/-- Settles O18: the frames of the writes of each instruction, put together. -/
theorem instructionsWriteOnlyTheirOwn : Obligations.InstructionsWriteOnlyTheirOwn := by
  intro i s t h
  have heffect : Effect s i t := exec_eq_next_iff.mp h
  exact ⟨heffect.unchangedExcept, heffect.regsUnchangedExcept⟩

end Sys2Proof.Machine
end

/-! ## What a cycle does to the mode, `pc`, the stack and memory -/

section
namespace Sys2Proof.Machine

/-! ### What an instruction does to the mode (40_cycle_driver.md R75) -/

/-- The mode an instruction may move the machine to, and why. -/
inductive ExecModeMove (s : State) : Instr → Mode → Prop where
  | waits (x : Reg) (noKey : s.key = none) : ExecModeMove s (.ldVxK x) (.blocked x)
  | underflows (empty : s.stack = []) : ExecModeMove s .ret (.halted .stackUnderflow)
  | outOfBounds {i : Instr} (fails : boundsFail i s = true) : ExecModeMove s i (.halted .invalidMemoryAccess)

/-- An instruction keeps the mode, or writes it and nothing else. -/
theorem Effect.mode_cases {s : State} {i : Instr} {t : State} (h : Effect s i t) :
    t.mode = s.mode ∨ ∃ m : Mode, ExecModeMove s i m ∧ t = s.setMode m := by
  have hframe : UnchangedExcept i.writes s t := h.unchangedExcept
  cases h with
  | underflow hempty => exact .inr ⟨_, .underflows hempty, rfl⟩
  | waits x hkey => exact .inr ⟨_, .waits x hkey, rfl⟩
  | outOfBounds hfails => exact .inr ⟨_, .outOfBounds hfails, rfl⟩
  | ret | takesKey | drw | ldBVx | ldMemVx => exact .inl rfl
  | ldVxMem => exact .inl (unchangedExcept_regs_setRegsFrom s 0 _ .mode (by simp))
  | _ => exact .inl (hframe .mode (by simp [Instr.writes]))

/-! ### What an instruction does to `pc` and the stack (R22) -/

theorem State.skipIf_pc_cases (s : State) (c : Bool) : (s.skipIf c).pc = s.pc ∨ (s.skipIf c).pc = s.pc + 2 := by
  cases c with
  | false => exact .inl rfl
  | true => exact .inr rfl

/-- Where an instruction may leave `pc`: where it was, one skip on, at a return address, at an operand, or at a computed
target. -/
theorem Effect.pc_cases {s : State} {i : Instr} {t : State} (h : Effect s i t) :
    t.pc = s.pc ∨ t.pc = s.pc + 2 ∨ t.pc ∈ s.stack ∨ (∃ nnn : Addr, t.pc = addrOperand nnn) ∨
      ∃ nnn : Addr, i = .jpV0 nnn ∧ t.pc = computedTarget nnn s := by
  have hframe : UnchangedExcept i.writes s t := h.unchangedExcept
  cases h with
  | ret below a htop => exact .inr (.inr (.inl (by simp [htop])))
  | jp nnn | call nnn => exact .inr (.inr (.inr (.inl ⟨nnn, rfl⟩)))
  | jpV0 nnn => exact .inr (.inr (.inr (.inr ⟨nnn, rfl, rfl⟩)))
  | seImm | sneImm | seReg | sneReg | skp | sknp => exact (s.skipIf_pc_cases _).imp_right .inl
  | underflow | outOfBounds => exact .inl rfl
  | _ => exact .inl (hframe .pc (by simp [Instr.writes]))

/-- Every address on the stack after an instruction stood there before it, or is the `pc` a CALL pushed. -/
theorem Effect.mem_stack {s : State} {i : Instr} {t : State} (h : Effect s i t) {a : Word} (ha : a ∈ t.stack) :
    a ∈ s.stack ∨ a = s.pc := by
  have hframe : UnchangedExcept i.writes s t := h.unchangedExcept
  cases h with
  | ret below b htop =>
    rw [htop]
    exact .inl (List.mem_append_left _ ha)
  | call => simpa using ha
  | underflow | outOfBounds => exact .inl ha
  | _ =>
    rw [hframe .stack (by simp [Instr.writes])] at ha
    exact .inl ha

/-! ### What an instruction does to memory (20_memory.md R42) -/

/-- The memory list is untouched, or is that after a store inside the address space. -/
theorem Effect.mem_cases {s : State} {i : Instr} {t : State} (h : Effect s i t) :
    t.mem = s.mem ∨ ∃ (a : Nat) (bytes : List Byte), a + bytes.length ≤ Config.memSize ∧
      t.mem = s.mem.storeFrom a bytes := by
  cases h with
  | ldBVx x hfits => exact .inr ⟨_, _, hfits, rfl⟩
  | ldMemVx x hfits => exact .inr ⟨_, _, by rw [State.regsUpTo_length]; exact hfits, rfl⟩
  | ldVxMem => exact .inl (s.setRegsFrom_frame 0 _).1
  | seImm | sneImm | seReg | sneReg | skp | sknp => exact .inl (s.skipIf_mem _)
  | _ => exact .inl rfl

theorem Effect.wf {s : State} {i : Instr} {t : State} (h : Effect s i t) (hwf : s.mem.wf = true) :
    t.mem.wf = true := by
  rcases h.mem_cases with hsame | ⟨a, bytes, hfits, hstore⟩
  · exact hsame ▸ hwf
  · rw [hstore]
    exact (s.mem.storeFrom_of_fits hfits).1 hwf

/-! ### What a cycle does -/

/-- The three kinds of cycle: idle, halted by the fetch check, and an instruction run in the advanced state. -/
theorem step_cases {s t : State} (h : step s = .next t) :
    (s.mode ≠ .running ∧ t = s) ∨
    (s.mode = .running ∧ 4094 ≤ s.pc.toNat ∧ t = s.setMode (.halted .invalidProgramCounter)) ∨
    (s.mode = .running ∧ s.pc.toNat < 4094 ∧ Effect s.advance (decodeWord s.wordAtPc) t) := by
  by_cases hrun : s.mode = .running
  · rcases Nat.lt_or_ge s.pc.toNat 4094 with hpc | hpc
    · exact .inr (.inr ⟨hrun, hpc, exec_eq_next_iff.mp ((step_of_fetches hrun hpc).symm.trans h)⟩)
    · exact .inr (.inl ⟨hrun, hpc, (Host.Outcome.next.inj ((step_of_limit_le hrun hpc).symm.trans h)).symm⟩)
  · exact .inl ⟨hrun, (Host.Outcome.next.inj ((step_of_not_running hrun).symm.trans h)).symm⟩

/-! ### The invariant -/

/-- A state of the invariant may change mode, to one that does not wait. -/
theorem State.Inv.setMode {s : State} (h : s.Inv) {m : Mode} (hm : ∀ x : Reg, m ≠ .blocked x) : (s.setMode m).Inv := by
  obtain ⟨hwf, hpc, hstack, -⟩ := h
  exact ⟨hwf, hpc, hstack, fun x hx => absurd hx (hm x)⟩

/-- 10_state.md R22 and 41_flow.md R77: an instruction that the fetch check let through, run after the advance. -/
theorem Effect.keeps_Inv {s : State} {i : Instr} {t : State} (h : Effect s i t) (hinv : s.Inv)
    (hpc : s.pc.toNat ≤ 4095) (hrun : s.mode = .running) : t.Inv := by
  obtain ⟨hwf, -, hstack, -⟩ := hinv
  refine ⟨h.wf hwf, ?pc, ?stack, ?mode⟩
  case pc =>
    rcases h.pc_cases with hpc' | hpc' | hmem | ⟨nnn, hpc'⟩ | ⟨nnn, -, hpc'⟩
    · rw [hpc']
      omega
    · rw [hpc']
      bv_omega
    · exact (hstack _ hmem).trans (by decide)
    · have hnnn := nnn.isLt
      rw [hpc', addrOperand_toNat]
      omega
    · have hnnn := nnn.isLt
      have hreg := (s.reg 0).isLt
      rw [hpc', computedTarget_toNat]
      omega
  case stack =>
    intro a ha
    rcases h.mem_stack ha with hold | rfl
    · exact hstack a hold
    · exact hpc
  case mode =>
    intro x hx
    rcases h.mode_cases with hsame | ⟨m, hmove, rfl⟩
    · rw [hsame, hrun] at hx
      cases hx
    · cases hmove with
      | waits y hkey => exact hkey
      | underflows | outOfBounds => cases hx

/-- Settles O15: an idle cycle changes nothing, a rejected one only the mode, and the fetch check leaves `pc` at most
4095 after the advance for the instruction to run with. -/
theorem cycleKeepsTheInvariant : Obligations.CycleKeepsTheInvariant := by
  intro s t hinv h
  rcases step_cases h with ⟨-, rfl⟩ | ⟨-, -, rfl⟩ | ⟨hrun, hpc, heffect⟩
  · exact hinv
  · exact hinv.setMode (fun x => by simp)
  · have hadv : s.advance.pc.toNat = s.pc.toNat + 2 := State.advance_pc_toNat (Nat.lt_trans hpc (by decide))
    have hlimit : s.advance.pc.toNat ≤ 4095 := by omega
    obtain ⟨hwf, -, hstack, hwait⟩ := hinv
    exact heffect.keeps_Inv ⟨hwf, hlimit.trans (by decide), hstack, hwait⟩ hlimit hrun

/-- Settles O14: memory and stack are empty, and the other two parts are facts of the reset values. -/
theorem resetMeetsTheInvariant : Obligations.ResetMeetsTheInvariant :=
  ⟨Memory.wf_nil, by decide, fun _ ha => absurd ha List.not_mem_nil, fun _ h => by cases h⟩

theorem resetCore_Inv (s : State) : (resetCore s).Inv := resetMeetsTheInvariant

theorem tick_Inv {s : State} (h : s.Inv) : (tick s).Inv := by
  cases hmode : s.mode with
  | running =>
    simp only [tick, hmode]
    exact h
  | blocked x => simpa only [tick, hmode] using h
  | halted reason => simpa only [tick, hmode] using h

theorem pressCode_Inv (k : KeyCode) {s : State} (h : s.Inv) : (pressCode k s).Inv := by
  cases hmode : s.mode with
  | running =>
    obtain ⟨hwf, hpc, hstack, -⟩ := h
    simp only [pressCode, hmode]
    exact ⟨hwf, hpc, hstack, fun x hx => by simp [hmode] at hx⟩
  | blocked x =>
    obtain ⟨hwf, hpc, hstack, -⟩ := h
    rw [pressCode_of_blocked k hmode]
    exact ⟨hwf, hpc, hstack, fun _ _ => rfl⟩
  | halted reason => simpa only [pressCode, hmode] using h

theorem releaseKey_Inv {s : State} (h : s.Inv) : (releaseKey s).Inv := by
  obtain ⟨hwf, hpc, hstack, -⟩ := id h
  cases hmode : s.mode with
  | running =>
    simp only [releaseKey, hmode]
    exact ⟨hwf, hpc, hstack, fun _ _ => rfl⟩
  | blocked x =>
    simp only [releaseKey, hmode]
    exact ⟨hwf, hpc, hstack, fun _ _ => rfl⟩
  | halted reason => simpa only [releaseKey, hmode] using h

theorem externalHalt_Inv (message : String) {s : State} (h : s.Inv) : (externalHalt message s).Inv := by
  cases hmode : s.mode with
  | running =>
    simp only [externalHalt, hmode]
    exact h.setMode (by simp)
  | blocked x =>
    simp only [externalHalt, hmode]
    exact h.setMode (by simp)
  | halted reason => simpa only [externalHalt, hmode] using h

theorem loadProgram_of_too_long {bytes : List Byte} (h : programRoom < bytes.length) (s : State) :
    loadProgram bytes s = (resetCore s).setMode (.halted .programTooLarge) :=
  if_neg (Nat.not_le.mpr h)

theorem loadProgram_Inv (bytes : List Byte) (s : State) : (loadProgram bytes s).Inv := by
  rcases Nat.lt_or_ge programRoom bytes.length with hlong | hfits
  · rw [loadProgram_of_too_long hlong]
    exact (resetCore_Inv s).setMode (by simp)
  · obtain ⟨hwf, hpc, hstack, hwait⟩ := resetCore_Inv s
    rw [loadProgram_of_fits hfits]
    exact ⟨Memory.place_wf (Nat.add_le_add_left hfits Config.progBase) hwf, hpc, hstack, hwait⟩

/-- A press answers a next state exactly for a code in range. -/
theorem apply_pressKey_eq_next {code : Nat} {s t : State} (h : State.apply (.pressKey code) s = .next t) :
    ∃ k : KeyCode, code = k.val ∧ t = pressCode k s := by
  by_cases hcode : code < 16
  · exact ⟨⟨code, hcode⟩, rfl, (Host.Outcome.next.inj ((apply_pressKey ⟨code, hcode⟩ s).symm.trans h)).symm⟩
  · simp only [State.apply, pressKey, hcode, dite_false] at h
    cases h

theorem apply_keeps_Inv {op : HostOp} {s t : State} (hinv : s.Inv) (h : State.apply op s = .next t) : t.Inv := by
  cases op with
  | cycle => exact cycleKeepsTheInvariant s t hinv h
  | tick => exact Host.Outcome.next.inj h ▸ tick_Inv hinv
  | pressKey code =>
    obtain ⟨k, rfl, rfl⟩ := apply_pressKey_eq_next h
    exact pressCode_Inv k hinv
  | releaseKey => exact Host.Outcome.next.inj h ▸ releaseKey_Inv hinv
  | halt message => exact Host.Outcome.next.inj h ▸ externalHalt_Inv message hinv
  | clearDirty => exact Host.Outcome.next.inj h ▸ hinv
  | reset => exact Host.Outcome.next.inj h ▸ resetCore_Inv s
  | loadProgram bytes => exact Host.Outcome.next.inj h ▸ loadProgram_Inv bytes s
  | read => exact Host.Outcome.next.inj h ▸ hinv

/-- A sequence of operations that answers is its first operation and then the rest. -/
theorem applyAll_cons_eq_next {op : HostOp} {rest : List HostOp} {s t : State}
    (h : State.applyAll (op :: rest) s = .next t) :
    ∃ u : State, State.apply op s = .next u ∧ State.applyAll rest u = .next t := by
  rw [State.applyAll] at h
  cases hop : State.apply op s with
  | next u => exact ⟨u, rfl, by rwa [hop] at h⟩
  | fault f => rw [hop] at h; cases h
  | refused f => rw [hop] at h; cases h

/-- Settles O16: by induction on the sequence, since each operation keeps the invariant. -/
theorem hostOperationsKeepTheInvariant : Obligations.HostOperationsKeepTheInvariant := by
  intro ops
  induction ops with
  | nil =>
    intro s t hinv h
    exact Host.Outcome.next.inj h ▸ hinv
  | cons op rest ih =>
    intro s t hinv h
    obtain ⟨u, hop, hrest⟩ := applyAll_cons_eq_next h
    exact ih u t (apply_keeps_Inv hinv hop) hrest

end Sys2Proof.Machine
end

/-! ## What a cycle answers and reports (40_cycle_driver.md) -/

section
namespace Sys2Proof.Machine

/-! ### The idle cycle and the fetch check (R67, R68) -/

theorem cycleResult_of_not_running {s : State} (h : s.mode ≠ .running) : cycleResult s = .next .noStep := by
  cases hmode : s.mode with
  | running => exact absurd hmode h
  | blocked x => simp only [cycleResult, hmode]
  | halted reason => simp only [cycleResult, hmode]

/-- Settles O5: both the cycle and its result look at the mode first. -/
theorem cycleIdleUnlessRunning : Obligations.CycleIdleUnlessRunning :=
  fun _ h => ⟨step_of_not_running h, cycleResult_of_not_running h⟩

theorem cycleResult_of_limit_le {s : State} (hrun : s.mode = .running) (hpc : 4094 ≤ s.pc.toNat) :
    cycleResult s = .next (.haltedAt s.pc none .invalidProgramCounter) := by
  simp only [cycleResult, hrun, Config.pcFetchLimit, ge_iff_le, hpc, if_true]

/-- Settles O6: the fetch check halts before anything is fetched or advanced. -/
theorem cycleRejectsProgramCounter : Obligations.CycleRejectsProgramCounter :=
  fun s hrun hpc => ⟨_, step_of_limit_le hrun hpc, rfl, unchangedExcept_mode_setMode s _,
    cycleResult_of_limit_le hrun hpc⟩

/-- Settles O8: below 4094 both limits let the fetch through, from 4095 up both reject it, and at 4094 only 4095 lets it
through. -/
theorem fetchLimitsDifferOnlyAt4094 : Obligations.FetchLimitsDifferOnlyAt4094 := by
  intro s
  refine ⟨fun hne => ?_, fun hrun hpc => cycleWith_of_fetches (Nat.le_refl 4095) hrun (hpc ▸ by decide)⟩
  by_cases hrun : s.mode = .running
  · rcases Nat.lt_or_ge s.pc.toNat 4094 with hlow | hhigh
    · rw [step_of_fetches hrun hlow]
      exact cycleWith_of_fetches (Nat.le_refl 4095) hrun (hlow.trans (by decide))
    · have hout : 4095 ≤ s.pc.toNat := Nat.lt_of_le_of_ne hhigh (Ne.symm hne)
      rw [step_of_limit_le hrun hhigh]
      exact cycleWith_of_limit_le hrun hout
  · rw [step_of_not_running hrun]
    exact cycleWith_of_not_running hrun

/-! ### The moves of the mode (R75) -/

/-- A cycle of a running machine that fetched keeps the mode, or writes it in the advanced state and nothing else. -/
theorem step_mode_cases {s t : State} (hrun : s.mode = .running) (hpc : s.pc.toNat < 4094) (h : step s = .next t) :
    t.mode = .running ∨
      ∃ m : Mode, ExecModeMove s.advance (decodeWord s.wordAtPc) m ∧ t = s.advance.setMode m := by
  rw [step_of_fetches hrun hpc] at h
  exact (exec_eq_next_iff.mp h).mode_cases.imp_left fun hsame => hsame.trans hrun

/-- Settles O10: a mode that is written by an instruction is all that it writes. -/
theorem haltingCycleIsPrecise : Obligations.HaltingCycleIsPrecise := by
  intro s t reason hrun hpc h hhalted
  rcases step_mode_cases hrun hpc h with hlive | ⟨m, -, rfl⟩
  · rw [hlive] at hhalted
    cases hhalted
  · exact congrArg s.advance.setMode hhalted

/-- The bounds of an access do not depend on the fetch advance. -/
theorem boundsFail_advance (i : Instr) (s : State) : boundsFail i s.advance = boundsFail i s := by
  cases i <;> rfl

theorem modeMove_of_step {s t : State} (h : step s = .next t) (hne : t.mode ≠ s.mode) :
    ModeMove s .cycle t.mode := by
  rcases step_cases h with ⟨-, rfl⟩ | ⟨hrun, hpc, rfl⟩ | ⟨hrun, hpc, -⟩
  · exact absurd rfl hne
  · exact .badPc hrun hpc
  · rcases step_mode_cases hrun hpc h with hsame | ⟨m, hmove, rfl⟩
    · exact absurd (hsame.trans hrun.symm) hne
    · generalize hword : decodeWord s.wordAtPc = i at hmove
      cases hmove with
      | waits x hkey => exact .waits x hrun hpc hword hkey
      | underflows hempty => exact .underflows hrun hpc hword hempty
      | outOfBounds hfails => exact .outOfBounds hrun hpc (by rwa [hword, ← boundsFail_advance])

theorem tick_mode (s : State) : (tick s).mode = s.mode := by
  cases hmode : s.mode <;> simp [tick, hmode]

theorem releaseKey_mode (s : State) : (releaseKey s).mode = s.mode := by
  cases hmode : s.mode <;> simp [releaseKey, hmode]

theorem modeMove_of_pressCode (k : KeyCode) {s : State} (hne : (pressCode k s).mode ≠ s.mode) :
    ModeMove s (.pressKey k.val) (pressCode k s).mode := by
  cases hmode : s.mode with
  | running => simp [pressCode, hmode] at hne
  | blocked x =>
    rw [pressCode_of_blocked k hmode]
    exact .wakes k.val x hmode k.isLt
  | halted reason => simp [pressCode, hmode] at hne

theorem modeMove_of_externalHalt (message : String) {s : State} (hne : (externalHalt message s).mode ≠ s.mode) :
    ModeMove s (.halt message) (externalHalt message s).mode := by
  cases hmode : s.mode with
  | running =>
    simp only [externalHalt, hmode]
    exact .requested message (by simp only [State.isHalted, hmode])
  | blocked x =>
    simp only [externalHalt, hmode]
    exact .requested message (by simp only [State.isHalted, hmode])
  | halted reason => simp [externalHalt, hmode] at hne

theorem modeMove_loadProgram (bytes : List Byte) (s : State) :
    ModeMove s (.loadProgram bytes) (loadProgram bytes s).mode := by
  rcases Nat.lt_or_ge programRoom bytes.length with hlong | hfits
  · rw [loadProgram_of_too_long hlong]
    exact .tooLarge bytes hlong
  · rw [loadProgram_of_fits hfits]
    exact .loads bytes hfits

/-- Settles O11: each operation keeps the mode or makes the move of its own row. -/
theorem modeMovesOnlyAlongTheTable : Obligations.ModeMovesOnlyAlongTheTable := by
  intro op s t h hne
  cases op with
  | cycle => exact modeMove_of_step h hne
  | tick =>
    obtain rfl := Host.Outcome.next.inj h
    exact absurd (tick_mode s) hne
  | pressKey code =>
    obtain ⟨k, rfl, rfl⟩ := apply_pressKey_eq_next h
    exact modeMove_of_pressCode k hne
  | releaseKey =>
    obtain rfl := Host.Outcome.next.inj h
    exact absurd (releaseKey_mode s) hne
  | halt message =>
    obtain rfl := Host.Outcome.next.inj h
    exact modeMove_of_externalHalt message hne
  | clearDirty | read =>
    obtain rfl := Host.Outcome.next.inj h
    exact absurd rfl hne
  | reset =>
    obtain rfl := Host.Outcome.next.inj h
    exact .resets
  | loadProgram bytes =>
    obtain rfl := Host.Outcome.next.inj h
    exact modeMove_loadProgram bytes s

/-! ### The result of a cycle that fetched (R74) -/

theorem cycleResult_of_fetches {s t : State} (hrun : s.mode = .running) (hpc : s.pc.toNat < 4094)
    (h : step s = .next t) : cycleResult s = .next (resultOf s.pc s.wordAtPc t.mode) := by
  have hfetch : fetchWord s = .next s.wordAtPc := fetchWord_eq_wordAtPc (hpc.trans (by decide))
  simp only [cycleResult, hrun, Config.pcFetchLimit, ge_iff_le, Nat.not_le.mpr hpc, if_false, hfetch, h, andThen_next]

theorem isUnknown_decodeWord_iff (w : Word) : isUnknown (decodeWord w) = true ↔ decodeWord w = .unknown w :=
  ⟨decodeWord_eq_unknown_of_isUnknown, fun h => by rw [h, isUnknown]⟩

/-- Settles O12: the result is a function of the final mode, and a halt by an instruction leaves memory as the fetch
read it. -/
theorem cycleResultFollowsTheMode : Obligations.CycleResultFollowsTheMode := by
  intro s t hrun hpc h
  rw [cycleResult_of_fetches hrun hpc h]
  refine ⟨fun hmode hword => ?unknown, fun hmode hword => ?executed, fun x hmode => ?waits, fun reason hmode => ?halts⟩
  case unknown =>
    have hunknown := (isUnknown_decodeWord_iff s.wordAtPc).mpr hword
    simp only [hmode, resultOf, hunknown, if_true]
  case executed =>
    have hknown := Bool.eq_false_iff.mpr (mt (isUnknown_decodeWord_iff s.wordAtPc).mp hword)
    simp only [hmode, resultOf, hknown, Bool.false_eq_true, if_false]
  case waits => simp only [hmode, resultOf]
  case halts =>
    refine ⟨by simp only [hmode, resultOf], ?_⟩
    rw [haltingCycleIsPrecise s t reason hrun hpc h hmode]
    exact ⟨rfl, rfl⟩

/-- Settles O28: UNKNOWN is the identity on the advanced state, and the result follows the mode. -/
theorem unknownWordIsReportedNoOp : Obligations.UnknownWordIsReportedNoOp := by
  refine ⟨by decide, fun w s => (Effect.unknown w).exec_eq, fun s hrun hpc hword => ?_⟩
  have hstep : step s = .next s.advance := by rw [step_of_fetches hrun hpc, hword, (Effect.unknown _).exec_eq]
  obtain ⟨hunknown, -⟩ := cycleResultFollowsTheMode s s.advance hrun hpc hstep
  exact ⟨hstep, hunknown hrun hword⟩

/-! ### Where a cycle leaves `pc` (R22) -/

/-- Settles O17: an instruction leaves `pc` past its own word, one skip further, at a return address or at an operand
below 0x1000, or is `Bnnn`. -/
theorem onlyComputedJumpsAndLastSkipsLeaveMemory : Obligations.OnlyComputedJumpsAndLastSkipsLeaveMemory := by
  intro s t hrun hpc hstack h hword
  rw [step_of_fetches hrun hpc] at h
  have hadv : s.advance.pc.toNat = s.pc.toNat + 2 := State.advance_pc_toNat (hpc.trans (by decide))
  rcases (exec_eq_next_iff.mp h).pc_cases with hpc' | hpc' | hmem | ⟨nnn, hpc'⟩ | ⟨nnn, hjump, -⟩
  · rw [hpc', hadv]
    omega
  · have hskip : t.pc.toNat = s.pc.toNat + 4 := by
      rw [hpc']
      bv_omega
    omega
  · exact .inl (Nat.lt_succ_of_le (hstack _ hmem))
  · rw [hpc', addrOperand_toNat]
    exact .inl nnn.isLt
  · exact absurd hjump (hword nnn)

/-! ### The trace listing (R76) -/

theorem mem_traceAddresses_iff (a : Nat) : a ∈ traceAddresses ↔ 0x200 ≤ a ∧ a ≤ 0xFFE ∧ a % 2 = 0 := by
  simp only [traceAddresses, Config.memSize, Config.progBase, List.mem_map, List.mem_range]
  constructor
  · rintro ⟨k, hk, rfl⟩
    omega
  · rintro ⟨hlow, hhigh, heven⟩
    exact ⟨(a - 0x200) / 2, by omega, by omega⟩

theorem traceAddresses_rising : traceAddresses.Pairwise (· < ·) :=
  List.pairwise_lt_range.map _ fun _ _ h => Nat.add_lt_add_left (Nat.mul_lt_mul_of_pos_left h (by decide)) _

theorem traceEntry_eq_some_iff (m : Memory) (a : Nat) (e : TraceEntry) :
    traceEntry m a = some e ↔ wordAt m a ≠ 0 ∧ e =
      { address := a, instr := decodeWord (wordAt m a), text := Config.traceFormat (decodeWord (wordAt m a)) } := by
  unfold traceEntry
  split
  · next hzero => simp [hzero]
  · next hword =>
    exact ⟨fun h => ⟨hword, (Option.some.inj h).symm⟩, fun ⟨_, h⟩ => congrArg some h.symm⟩

theorem traceEntry_address {m : Memory} {a : Nat} {e : TraceEntry} (h : traceEntry m a = some e) : e.address = a := by
  obtain ⟨-, rfl⟩ := (traceEntry_eq_some_iff m a e).mp h
  rfl

theorem mem_traceListing_iff (m : Memory) (e : TraceEntry) :
    e ∈ traceListing m ↔ e.address ∈ traceAddresses ∧ traceEntry m e.address = some e := by
  rw [traceListing, List.mem_filterMap]
  constructor
  · rintro ⟨a, ha, he⟩
    obtain rfl := traceEntry_address he
    exact ⟨ha, he⟩
  · rintro ⟨ha, he⟩
    exact ⟨_, ha, he⟩

theorem exists_traceListing_iff (m : Memory) (a : Nat) :
    (∃ e ∈ traceListing m, e.address = a) ↔ a ∈ traceAddresses ∧ wordAt m a ≠ 0 := by
  constructor
  · rintro ⟨e, hmem, rfl⟩
    obtain ⟨ha, he⟩ := (mem_traceListing_iff m e).mp hmem
    exact ⟨ha, ((traceEntry_eq_some_iff m _ e).mp he).1⟩
  · rintro ⟨ha, hword⟩
    obtain ⟨e, he⟩ : ∃ e : TraceEntry, traceEntry m a = some e :=
      ⟨_, (traceEntry_eq_some_iff m a _).mpr ⟨hword, rfl⟩⟩
    obtain rfl := traceEntry_address he
    exact ⟨e, (mem_traceListing_iff m e).mpr ⟨ha, he⟩, rfl⟩

theorem traceListing_rising (m : Memory) : (traceListing m).Pairwise fun d e => d.address < e.address := by
  refine traceAddresses_rising.filterMap _ fun a b hlt d hd e he => ?_
  rw [traceEntry_address hd, traceEntry_address he]
  exact hlt

theorem cycleResult_answers (s : State) : ∃ r : CycleResult, cycleResult s = .next r := by
  by_cases hrun : s.mode = .running
  · rcases Nat.lt_or_ge s.pc.toNat 4094 with hpc | hpc
    · obtain ⟨t, hstep⟩ : ∃ t : State, step s = .next t := cycleWith_answers (by decide) s
      exact ⟨_, cycleResult_of_fetches hrun hpc hstep⟩
    · exact ⟨_, cycleResult_of_limit_le hrun hpc⟩
  · exact ⟨_, cycleResult_of_not_running hrun⟩

theorem traceMemory_eq_ite (snapshot : Config.TraceSnapshot) (s t : State) :
    traceMemory snapshot s t = if snapshot = .before then s.mem else t.mem := by
  cases snapshot with
  | before => rfl
  | after => rfl

/-- Settles O13: the listing is the scan of the rising addresses, and the output puts it beside the result. -/
theorem traceListsNonZeroWords : Obligations.TraceListsNonZeroWords := by
  refine ⟨fun m a => ?listed, fun m e hmem => ?entry, traceListing_rising, fun trace s => ?output⟩
  case listed => rw [exists_traceListing_iff, mem_traceAddresses_iff, and_assoc, and_assoc]
  case entry =>
    obtain ⟨-, he⟩ := (mem_traceListing_iff m e).mp hmem
    obtain ⟨-, heq⟩ := (traceEntry_eq_some_iff m _ e).mp he
    rw [heq]
    exact ⟨rfl, rfl⟩
  case output =>
    obtain ⟨t, hstep⟩ : ∃ t : State, step s = .next t := cycleWith_answers (by decide) s
    obtain ⟨r, hresult⟩ := cycleResult_answers s
    refine ⟨t, ⟨r, if trace then some (traceListing (traceMemory Config.traceSnapshot s t)) else none⟩, hstep, ?_,
      hresult, ?_⟩
    · simp only [cycleOutput, hresult, hstep, andThen_next]
    · rw [traceMemory_eq_ite]

end Sys2Proof.Machine
end

/-! ## What no instruction reads -/

section
namespace Sys2Proof.Machine

/-! ### Updates that the shared operations do not see -/

/-- A block load commutes with an update that each register write commutes with. -/
theorem setRegsFrom_commutes {f : State → State}
    (hreg : ∀ (s : State) (r : Reg) (b : Byte), f (s.setReg r b) = (f s).setReg r b) (s : State) (r : Nat)
    (bytes : List Byte) : f (s.setRegsFrom r bytes) = (f s).setRegsFrom r bytes := by
  induction bytes generalizing s r with
  | nil => rfl
  | cons b rest ih =>
    rw [State.setRegsFrom, State.setRegsFrom, ih]
    split
    · rw [hreg]
    · rfl

/-- A skip commutes with an update that the advance commutes with. -/
theorem skipIf_commutes {f : State → State} (hadv : ∀ s : State, f s.advance = (f s).advance) (s : State) (c : Bool) :
    f (s.skipIf c) = (f s).skipIf c := by
  cases c with
  | true => exact hadv s
  | false => rfl

/-! ### KEY (10_state.md R31) -/

theorem State.setKey_skipIf (s : State) (k : Option KeyCode) (c : Bool) :
    (s.skipIf c).setKey k = (s.setKey k).skipIf c :=
  skipIf_commutes (f := (·.setKey k)) (fun _ => rfl) s c

theorem State.setKey_setRegsFrom (s : State) (k : Option KeyCode) (r : Nat) (bytes : List Byte) :
    (s.setRegsFrom r bytes).setKey k = (s.setKey k).setRegsFrom r bytes :=
  setRegsFrom_commutes (f := (·.setKey k)) (fun _ _ _ => rfl) s r bytes

theorem boundsFail_setKey (i : Instr) (s : State) (k : Option KeyCode) :
    boundsFail i (s.setKey k) = boundsFail i s := by
  cases i <;> rfl

/-- An instruction that does not read `KEY` has the same effect beside any other latch. -/
theorem Effect.setKey {s : State} {i : Instr} {t : State} (h : Effect s i t) (hread : i.readsKey = false)
    (k : Option KeyCode) : Effect (s.setKey k) i (t.setKey k) := by
  cases h with
  | skp | sknp | takesKey | waits => cases hread
  | seImm x kk => exact s.setKey_skipIf k _ ▸ .seImm x kk
  | sneImm x kk => exact s.setKey_skipIf k _ ▸ .sneImm x kk
  | seReg x y => exact s.setKey_skipIf k _ ▸ .seReg x y
  | sneReg x y => exact s.setKey_skipIf k _ ▸ .sneReg x y
  | ldVxMem x hfits => exact s.setKey_setRegsFrom k 0 _ ▸ .ldVxMem x hfits
  | outOfBounds hfails => exact .outOfBounds ((boundsFail_setKey i s k).trans hfails)
  | underflow hempty => exact .underflow hempty
  | ret below a htop => exact .ret below a htop
  | drw x hcompletes => exact .drw (s := s.setKey k) x hcompletes
  | addIVx x hinside => exact .addIVx (s := s.setKey k) x hinside
  | addIVxFlag x habove => exact .addIVxFlag (s := s.setKey k) x habove
  | ldBVx x hfits => exact .ldBVx (s := s.setKey k) x hfits
  | ldMemVx x hfits => exact .ldMemVx (s := s.setKey k) x hfits
  | _ => constructor

/-- Settles O20: the second run is the first one beside the other latch. -/
theorem onlyKeyInstructionsReadTheLatch : Obligations.OnlyKeyInstructionsReadTheLatch := by
  intro i s t k hread h
  have heffect : Effect s i t := exec_eq_next_iff.mp h
  exact ⟨t.setKey k, (heffect.setKey hread k).exec_eq, unchangedExcept_key_setKey t k, rfl⟩

/-! ### ST and DIRTY (10_state.md sections 6 and 7) -/

/-- Other values in `ST` and `DIRTY`. -/
def State.withStDirty (b : Byte) (d : Bool) (s : State) : State := (s.setSt b).setDirty d

theorem State.withStDirty_skipIf (s : State) (b : Byte) (d : Bool) (c : Bool) :
    (s.skipIf c).withStDirty b d = (s.withStDirty b d).skipIf c :=
  skipIf_commutes (f := State.withStDirty b d) (fun _ => rfl) s c

theorem State.withStDirty_setRegsFrom (s : State) (b : Byte) (d : Bool) (r : Nat) (bytes : List Byte) :
    (s.setRegsFrom r bytes).withStDirty b d = (s.withStDirty b d).setRegsFrom r bytes :=
  setRegsFrom_commutes (f := State.withStDirty b d) (fun _ _ _ => rfl) s r bytes

theorem boundsFail_withStDirty (i : Instr) (s : State) (b : Byte) (d : Bool) :
    boundsFail i (s.withStDirty b d) = boundsFail i s := by
  cases i <;> rfl

/-- The value of `ST` after an instruction that led to `t`, when `b` stood there before it. -/
def stAfter (i : Instr) (t : State) (b : Byte) : Byte := if Element.st ∈ i.writes then t.st else b

/-- The value of `DIRTY` after an instruction that led from `s` to `t`, when `d` stood there before it. -/
def dirtyAfter (i : Instr) (s t : State) (d : Bool) : Bool :=
  if Element.dirty ∈ i.writes ∧ boundsFail i s = false then t.dirty else d

theorem stAfter_of_boundsFail {i : Instr} {s : State} (h : boundsFail i s = true) (t : State) (b : Byte) :
    stAfter i t b = b := by
  cases i with
  | drw | ldBVx | ldMemVx | ldVxMem => rfl
  | _ => cases h

theorem dirtyAfter_of_boundsFail {i : Instr} {s : State} (h : boundsFail i s = true) (t : State) (d : Bool) :
    dirtyAfter i s t d = d :=
  if_neg fun hwrites => Bool.false_ne_true (hwrites.2.symm.trans h)

theorem dirtyAfter_drw {y : Reg} {n : RowCount} {s : State} (h : drawHalts y n s = false) (x : Reg) (t : State)
    (d : Bool) : dirtyAfter (.drw x y n) s t d = t.dirty :=
  if_pos ⟨by simp [Instr.writes], h⟩

/-- An instruction has the same effect beside other values in `ST` and `DIRTY`, which stay if it does not write them. -/
theorem Effect.withStDirty {s : State} {i : Instr} {t : State} (h : Effect s i t) (b : Byte) (d : Bool) :
    Effect (s.withStDirty b d) i (t.withStDirty (stAfter i t b) (dirtyAfter i s t d)) := by
  cases h with
  | seImm x kk => exact s.withStDirty_skipIf b d _ ▸ .seImm x kk
  | sneImm x kk => exact s.withStDirty_skipIf b d _ ▸ .sneImm x kk
  | seReg x y => exact s.withStDirty_skipIf b d _ ▸ .seReg x y
  | sneReg x y => exact s.withStDirty_skipIf b d _ ▸ .sneReg x y
  | skp x => exact s.withStDirty_skipIf b d _ ▸ .skp x
  | sknp x => exact s.withStDirty_skipIf b d _ ▸ .sknp x
  | ldVxMem x hfits => exact s.withStDirty_setRegsFrom b d 0 _ ▸ .ldVxMem x hfits
  | outOfBounds hfails =>
    rw [stAfter_of_boundsFail hfails, dirtyAfter_of_boundsFail hfails]
    exact .outOfBounds ((boundsFail_withStDirty i s b d).trans hfails)
  | underflow hempty => exact .underflow hempty
  | ret below a htop => exact .ret below a htop
  | drw x hcompletes =>
    rw [dirtyAfter_drw hcompletes]
    exact .drw (s := s.withStDirty b d) x hcompletes
  | takesKey x hkey => exact .takesKey (s := s.withStDirty b d) x hkey
  | waits x hkey => exact .waits (s := s.withStDirty b d) x hkey
  | addIVx x hinside => exact .addIVx (s := s.withStDirty b d) x hinside
  | addIVxFlag x habove => exact .addIVxFlag (s := s.withStDirty b d) x habove
  | ldBVx x hfits => exact .ldBVx (s := s.withStDirty b d) x hfits
  | ldMemVx x hfits => exact .ldMemVx (s := s.withStDirty b d) x hfits
  | _ => constructor

/-- Settles O19: the second run is the first one beside the other values, where they are not overwritten. -/
theorem soundTimerAndDirtyAreNeverRead : Obligations.SoundTimerAndDirtyAreNeverRead := by
  intro i s t b d h
  have heffect : Effect s i t := exec_eq_next_iff.mp h
  have hframe : ∀ (c : Byte) (e : Bool), UnchangedExcept [.st, .dirty] t (t.withStDirty c e) := fun c e =>
    (unchangedExcept_st_setSt t c).append (unchangedExcept_dirty_setDirty _ e)
  exact ⟨_, (heffect.withStDirty b d).exec_eq, hframe _ _, rfl, rfl⟩

end Sys2Proof.Machine
end

/-! ## Calls, skips, flags and the address register, continued -/

section
namespace Sys2Proof.Machine

/-! ### CALL and the RET that undoes it (R77, R79) -/

theorem unchangedExcept_push_setPc (s : State) (a b : Word) :
    UnchangedExcept [.pc, .stack] s ((s.push a).setPc b) :=
  ((unchangedExcept_stack_setStack s _).append (unchangedExcept_pc_setPc _ b)).mono (by simp)

theorem callWith_of_full {limit : Nat} {s : State} (h : s.stack.length = limit) (nnn : Addr) :
    callWith (some limit) nnn s = .next (s.setMode (.halted .stackOverflow)) :=
  if_pos (decide_eq_true h)

theorem callWith_of_not_full {limit : Nat} {s : State} (h : s.stack.length ≠ limit) (nnn : Addr) :
    callWith (some limit) nnn s = exec (.call nnn) s := by
  have hroom : stackFull (some limit) s = false := decide_eq_false h
  rw [callWith, hroom, (Effect.call nnn).exec_eq]
  rfl

/-- Settles O23: the default stack is never full, and a bounded one that is not full runs the same. -/
theorem callPushesReturnAddress : Obligations.CallPushesReturnAddress := by
  intro nnn
  refine ⟨decodeWord_call nnn, fun s => ⟨?_, fun _ hfull => callWith_of_full hfull nnn,
    fun _ hroom => callWith_of_not_full hroom nnn⟩⟩
  exact ⟨_, (Effect.call nnn).exec_eq, addrOperand_toNat nnn, rfl, unchangedExcept_push_setPc s _ _⟩

/-- Settles O24: the top of the stack is the `pc` that CALL pushed, so RET pops exactly that. -/
theorem returnUndoesCall : Obligations.ReturnUndoesCall := by
  intro nnn s t u hcall hstack
  obtain rfl := Host.Outcome.next.inj ((Effect.call nnn).exec_eq.symm.trans hcall)
  obtain ⟨-, hpops, -⟩ := returnPopsOrUnderflows
  exact hpops u s.stack s.pc hstack

/-! ### SE and SNE on two registers (R82, R83) -/

/-- Settles O26: the low nibble decides between the skip and UNKNOWN, and a skip is one more advance. -/
theorem registerSkipsCompare : Obligations.RegisterSkipsCompare := by
  intro x y
  refine ⟨decodeWord_seReg x y, decodeWord_sneReg x y, fun n hn => ?strict, fun s => ⟨?se, ?sne⟩⟩
  case strict =>
    have hnibble : n.val ≠ 0 := fun h => hn (Fin.ext h)
    rw [decodeWord_wordXyn_5, decodeWord_wordXyn_9, if_neg hnibble, if_neg hnibble]
    exact ⟨rfl, rfl⟩
  case se =>
    refine ⟨_, (Effect.seReg x y).exec_eq, ?_, unchangedExcept_pc_skipIf s _⟩
    simp [BitVec.toNat_inj]
  case sne =>
    refine ⟨_, (Effect.sneReg x y).exec_eq, ?_, unchangedExcept_pc_skipIf s _⟩
    simp [BitVec.toNat_inj]

/-! ### SUB and SUBN (R92, R94) -/

theorem flagByte_toNat (c : Bool) : (flagByte c).toNat = if c = true then 1 else 0 := by
  cases c <;> rfl

theorem greaterFlag_toNat (a b : Byte) : (greaterFlag a b).toNat = if a.toNat > b.toNat then 1 else 0 := by
  simp only [greaterFlag, flagByte_toNat, decide_eq_true_eq]

/-- A register as it reads after `VF` took the number `flag`. -/
theorem toNat_reg_setVF {s : State} {b : Byte} {flag : Nat} (h : b.toNat = flag) (r : Reg) :
    ((s.setVF b).reg r).toNat = if r = regF then flag else (s.reg r).toNat := by
  rw [State.reg_setVF, apply_ite BitVec.toNat, h]

/-- Byte subtraction is subtraction modulo 256, written without a truncated difference. -/
theorem byte_sub_toNat (a b : Byte) : (a - b).toNat = (256 + a.toNat - b.toNat) % 256 := by
  have := b.isLt
  rw [BitVec.toNat_sub]
  omega

/-- `V[x]` after `VF` took the flag and then `V[x]` the difference of `V[p]` and `V[q]` as they read with it. -/
theorem toNat_reg_setVF_setReg_sub {s : State} {b : Byte} {flag : Nat} (h : b.toNat = flag) (x p q : Reg) :
    (((s.setVF b).setReg x ((s.setVF b).reg p - (s.setVF b).reg q)).reg x).toNat =
      (256 + (if p = regF then flag else (s.reg p).toNat) - (if q = regF then flag else (s.reg q).toNat)) % 256 := by
  rw [State.reg_setReg_self, byte_sub_toNat, toNat_reg_setVF h, toNat_reg_setVF h]

/-- Settles O32: the flag is written first, and both operands are read after it. -/
theorem subtractionsFlagStrictlyGreater : Obligations.SubtractionsFlagStrictlyGreater := by
  intro x y
  refine ⟨decodeWord_sub x y, decodeWord_subn x y, fun s => ⟨?sub, ?subn⟩⟩
  case sub =>
    refine ⟨_, _, _, _, (Effect.sub x y).exec_eq, rfl, rfl, rfl, ?_, fun hx => ?_,
      regsUnchangedExcept_setVF_setReg s x _ _, unchangedExcept_regs_setVF_setReg s x _ _⟩
    · exact toNat_reg_setVF_setReg_sub (greaterFlag_toNat _ _) x x y
    · rw [State.regF_setVF_setReg s _ _ hx, greaterFlag_toNat]
  case subn =>
    refine ⟨_, _, _, _, (Effect.subn x y).exec_eq, rfl, rfl, rfl, ?_, fun hx => ?_,
      regsUnchangedExcept_setVF_setReg s x _ _, unchangedExcept_regs_setVF_setReg s x _ _⟩
    · exact toNat_reg_setVF_setReg_sub (greaterFlag_toNat _ _) x y x
    · rw [State.regF_setVF_setReg s _ _ hx, greaterFlag_toNat]

/-! ### SHR and SHL (R93, R95) -/

theorem lowBitFlag_toNat (a : Byte) : (lowBitFlag a).toNat = a.toNat % 2 := by
  rw [lowBitFlag, BitVec.toNat_and]
  exact Nat.and_one_is_mod a.toNat

/-- The mask 0x80 keeps bit 7, which is set exactly from 128 up. -/
theorem and_0x80_ne_zero_iff (a : Byte) : (a &&& 0x80) ≠ 0 ↔ 128 ≤ a.toNat := by
  have hbyte := a.isLt
  have hmask : a &&& 0x80 = if a.getLsbD 7 then BitVec.twoPow 8 7 else 0#8 := BitVec.and_twoPow a 7
  have hbit : a.getLsbD 7 = decide (a.toNat / 128 % 2 = 1) := Nat.testBit_eq_decide_div_mod_eq
  rw [hmask, hbit]
  by_cases h : 128 ≤ a.toNat
  · have hset : a.toNat / 128 % 2 = 1 := by omega
    simp [h, hset]
  · have hclear : ¬a.toNat / 128 % 2 = 1 := by omega
    simp [h, hclear]

theorem highBitFlag_toNat (a : Byte) : (highBitFlag a).toNat = a.toNat / 128 := by
  have hbyte := a.isLt
  simp only [highBitFlag, flagByte_toNat, bne_iff_ne, and_0x80_ne_zero_iff]
  split <;> omega

/-- Settles O33: the flag is written first, and the shift acts on `V[x]` as it reads after that. -/
theorem shiftsMoveOneBitOut : Obligations.ShiftsMoveOneBitOut := by
  intro x y
  refine ⟨decodeWord_shr x y, decodeWord_shl x y, fun s => ⟨?shr, ?shl⟩⟩
  case shr =>
    refine ⟨_, (Effect.shr x y).exec_eq, fun hx => ⟨?_, ?_⟩, fun hx => ?_, fun y' => (Effect.shr x y').exec_eq,
      regsUnchangedExcept_setVF_setReg s x _ _, unchangedExcept_regs_setVF_setReg s x _ _⟩
    · rw [State.reg_setReg_self, BitVec.toNat_ushiftRight, toNat_reg_setVF (lowBitFlag_toNat _), if_neg hx,
        Nat.shiftRight_eq_div_pow]
    · rw [State.regF_setVF_setReg s _ _ hx, lowBitFlag_toNat]
    · subst hx
      apply BitVec.eq_of_toNat_eq
      rw [State.reg_setReg_self, BitVec.toNat_ushiftRight, toNat_reg_setVF (lowBitFlag_toNat _), if_pos rfl,
        Nat.shiftRight_eq_div_pow]
      exact Nat.div_eq_of_lt (Nat.mod_lt _ (by decide))
  case shl =>
    have hbyte := (s.reg x).isLt
    refine ⟨_, (Effect.shl x y).exec_eq, fun hx => ⟨?_, ?_⟩, fun hx => ?_, fun y' => (Effect.shl x y').exec_eq,
      regsUnchangedExcept_setVF_setReg s x _ _, unchangedExcept_regs_setVF_setReg s x _ _⟩
    · rw [State.reg_setReg_self, BitVec.toNat_shiftLeft, toNat_reg_setVF (highBitFlag_toNat _), if_neg hx,
        Nat.shiftLeft_eq]
      omega
    · rw [State.regF_setVF_setReg s _ _ hx, highBitFlag_toNat]
    · subst hx
      rw [State.reg_setReg_self, BitVec.toNat_shiftLeft, toNat_reg_setVF (highBitFlag_toNat _), if_pos rfl,
        Nat.shiftLeft_eq]
      omega

/-! ### RND (R97) -/

/-- Settles O34: the write of `V[x]` is one conjunction of bytes, whatever the random byte is. -/
theorem randomByteIsMasked : Obligations.RandomByteIsMasked := by
  intro x kk
  refine ⟨decodeWord_rnd x kk, fun s => ?_⟩
  have hreg : ((s.setReg x (Config.randomByte s.draws &&& kk)).setDraws (s.draws + 1)).reg x =
      Config.randomByte s.draws &&& kk := s.reg_setReg_self x _
  refine ⟨_, (Effect.rnd x kk).exec_eq, rfl, fun b => ?_, fun hkk => ?_, fun hkk => ?_,
    regsUnchangedExcept_setReg s x _, (unchangedExcept_regs_setReg s x _).append (unchangedExcept_draws_setDraws _ _)⟩
  · rw [hreg, BitVec.getLsbD_and]
  · rw [hreg, hkk]
    exact BitVec.and_zero
  · rw [hreg, hkk]
    exact BitVec.and_allOnes

/-! ### ADD I, Vx and LD F, Vx (R99, R100) -/

theorem indexOverflows_iff (x : Reg) (s : State) :
    indexOverflows (indexSum x s) = true ↔ s.i.toNat + (s.reg x).toNat > 4096 := decide_eq_true_iff

/-- Settles O36: the exact sum decides the write of `VF`, and its reduction is the new `I`. -/
theorem addToIFlagsAboveMemory : Obligations.AddToIFlagsAboveMemory := by
  intro x
  refine ⟨decodeWord_addIVx x, fun s => ?_⟩
  cases hsum : indexOverflows (indexSum x s) with
  | true =>
    refine ⟨_, (Effect.addIVxFlag x hsum).exec_eq, BitVec.toNat_ofNat _ _, ?_,
      regsUnchangedExcept_setReg (s.setI _) regF _,
      (unchangedExcept_i_setI s _).append (unchangedExcept_regs_setReg _ regF _)⟩
    rw [if_pos ((indexOverflows_iff x s).mp hsum), State.reg_setVF, if_pos rfl]
    rfl
  | false =>
    refine ⟨_, (Effect.addIVx x hsum).exec_eq, BitVec.toNat_ofNat _ _, ?_, fun _ _ => rfl,
      (unchangedExcept_i_setI s _).mono (by simp)⟩
    rw [if_neg (mt (indexOverflows_iff x s).mpr (Bool.eq_false_iff.mp hsum))]
    rfl

/-- The highest glyph address is far below 2^16, so nothing is lost. -/
theorem glyphAddress_toNat (x : Reg) (s : State) :
    (glyphAddress x s).toNat = Config.fontBase + 5 * (s.reg x).toNat := by
  have hfont := fontBase_fits
  have hreg := (s.reg x).isLt
  simp only [Config.fontSize, Config.progBase] at hfont
  simp only [glyphAddress, Config.glyphSize, BitVec.toNat_ofNat]
  omega

/-- Settles O37: the font ends below the program, whatever its base. -/
theorem fontAddressIsUnmasked : Obligations.FontAddressIsUnmasked :=
  ⟨fontBase_fits, fun x => ⟨decodeWord_ldFVx x, fun s =>
    ⟨_, (Effect.ldFVx x).exec_eq, glyphAddress_toNat x s, unchangedExcept_i_setI s _⟩⟩⟩

end Sys2Proof.Machine
end

/-! ## Memory and its transfers, continued -/

section
namespace Sys2Proof.Machine

/-! ### The font region (20_memory.md R44) -/

theorem storableUnder_discard_iff (a : Nat) :
    storableUnder .discard a = true ↔ ¬(Config.fontBase ≤ a ∧ a < Config.fontBase + 80) := by
  simp only [storableUnder, Bool.not_eq_true', ← Bool.not_eq_true, inFont_iff, Config.fontSize]

/-- Settles O43: a write stores or changes nothing, by the policy at its address. -/
theorem fontRegionFollowsThePolicy : Obligations.FontRegionFollowsThePolicy := by
  refine ⟨fontBase_fits, fun _ => rfl, storableUnder_discard_iff, fun a b s ha => ?_⟩
  refine ⟨_, memWrite_of_lt b s ha, ?_⟩
  rw [storable_eq]
  cases hpolicy : storableUnder Config.fontWrite a with
  | true =>
    refine ⟨unchangedExcept_mem_setMem s _, fun c => ?_⟩
    simp
  | false => exact ⟨UnchangedExcept.refl _ s, fun c => by simp⟩

/-! ### The canonical form (log 30) -/

theorem Memory.read_eq_resetByte {m : Memory} {a : Nat} (h : ∀ c ∈ m, c.1 ≠ a) : m.read a = resetByte a := by
  induction m with
  | nil => rfl
  | cons c rest ih =>
    obtain ⟨b, v⟩ := c
    obtain ⟨hb, hrest⟩ := List.forall_mem_cons.mp h
    rw [Memory.read_cons, if_neg (Ne.symm hb), ih hrest]

/-- With rising addresses a cell is what its address reads as. -/
theorem Memory.read_of_mem {m : Memory} (hm : m.Pairwise fun c d => c.1 < d.1) {a : Nat} {v : Byte}
    (h : (a, v) ∈ m) : m.read a = v := by
  induction m with
  | nil => cases h
  | cons c rest ih =>
    obtain ⟨b, w⟩ := c
    obtain ⟨hb, hrest⟩ := List.pairwise_cons.mp hm
    rcases List.mem_cons.mp h with heq | hmem
    · obtain ⟨rfl, rfl⟩ := Prod.mk.inj heq
      rw [Memory.read_cons, if_pos rfl]
    · have hne : a ≠ b := (Nat.ne_of_lt (hb (a, v) hmem)).symm
      rw [Memory.read_cons, if_neg hne, ih hrest hmem]

/-- The cells of a canonical memory are the addresses that do not read as after reset. -/
theorem Memory.mem_iff_of_wf {m : Memory} (hm : m.wf = true) (a : Nat) (v : Byte) :
    (a, v) ∈ m ↔ m.read a = v ∧ v ≠ resetByte a := by
  obtain ⟨hrising, hcells⟩ := m.wf_iff.mp hm
  constructor
  · intro hmem
    obtain ⟨-, hne⟩ := hcells _ hmem
    exact ⟨Memory.read_of_mem hrising hmem, hne⟩
  · rintro ⟨hread, hne⟩
    by_contra habsent
    have hout : ∀ c ∈ m, c.1 ≠ a := by
      rintro ⟨b, w⟩ hmem rfl
      exact habsent ((hread.symm.trans (Memory.read_of_mem hrising hmem)) ▸ hmem)
    exact hne (hread.symm.trans (Memory.read_eq_resetByte hout))

/-- Settles O44: the reads determine the cells, and rising addresses determine their order. -/
theorem canonicalMemoryIsUnique : Obligations.CanonicalMemoryIsUnique := by
  intro m k hm hk hread
  obtain ⟨hmRising, -⟩ := m.wf_iff.mp hm
  obtain ⟨hkRising, -⟩ := k.wf_iff.mp hk
  have hcells : ∀ c : Host.Cell, c ∈ m ↔ c ∈ k := fun ⟨a, v⟩ => by
    rw [Memory.mem_iff_of_wf hm, Memory.mem_iff_of_wf hk, hread]
  have hirrefl : Std.Irrefl fun c d : Host.Cell => c.1 < d.1 := ⟨fun c => Nat.lt_irrefl c.1⟩
  have hantisymm : Std.Antisymm fun c d : Host.Cell => c.1 < d.1 :=
    ⟨fun _ _ hcd hdc => absurd hcd (Nat.lt_asymm hdc)⟩
  exact hmRising.eq_of_mem_iff hkRising hcells

/-! ### LD B, Vx (R102) -/

/-- Settles O39: the highest address decides between the halt and a store of the three digits. -/
theorem decimalStoreWritesThreeBytes : Obligations.DecimalStoreWritesThreeBytes := by
  intro x
  refine ⟨decodeWord_ldBVx x, fun s hout => ?halts, fun s hfits => ?stores⟩
  case halts =>
    exact ⟨_, exec_of_boundsFail (i := .ldBVx x) (decide_eq_true hout), rfl, unchangedExcept_mode_setMode s _⟩
  case stores =>
    refine ⟨_, exec_ldBVx_of_fits hfits, unchangedExcept_mem_setMem s _, fun a => ?_⟩
    obtain ⟨-, hread⟩ := s.mem.storeFrom_of_fits (a := s.i.toNat)
      (bytes := [hundreds (s.reg x), tens (s.reg x), ones (s.reg x)]) hfits
    rw [State.setMem_mem, hread]
    cases hs : storable a with
    | false => simp
    | true =>
      by_cases hin : s.i.toNat ≤ a ∧ a < s.i.toNat + 3
      · obtain ⟨j, rfl⟩ : ∃ j, a = s.i.toNat + j := ⟨a - s.i.toNat, by omega⟩
        have hj : j < 3 := by omega
        interval_cases j <;> simp
      · have hne : a ≠ s.i.toNat ∧ a ≠ s.i.toNat + 1 ∧ a ≠ s.i.toNat + 2 := by omega
        obtain ⟨h0, h1, h2⟩ := hne
        simp [h0, h1, h2, hin]

/-! ### LD [I], Vx and LD Vx, [I] (R103, R104) -/

/-- What a block store leaves at every address. -/
theorem read_storeFrom_regsUpTo {x : Reg} {s : State} (hfits : s.i.toNat + x.val < Config.memSize) :
    (∀ r : Reg, r ≤ x → storable (s.i.toNat + r.val) = true →
      (s.mem.storeFrom s.i.toNat (s.regsUpTo x)).read (s.i.toNat + r.val) = s.reg r) ∧
    (∀ a : Nat, a < s.i.toNat ∨ s.i.toNat + x.val < a ∨ storable a = false →
      (s.mem.storeFrom s.i.toNat (s.regsUpTo x)).read a = s.mem.read a) := by
  obtain ⟨-, hread⟩ := s.mem.storeFrom_of_fits (a := s.i.toNat) (bytes := s.regsUpTo x)
    (by rw [State.regsUpTo_length]; exact hfits)
  simp only [State.regsUpTo_length] at hread
  refine ⟨fun r hr hstored => ?_, fun a hout => ?_⟩
  · have hin : s.i.toNat + r.val < s.i.toNat + (x.val + 1) := Nat.add_lt_add_left (Nat.lt_succ_of_le hr) _
    rw [hread, if_pos ⟨Nat.le_add_right _ _, hin, hstored⟩, Nat.add_sub_cancel_left, s.regsUpTo_getElem? x r hr,
      Option.getD_some]
  · rw [hread, if_neg]
    rintro ⟨hlow, hhigh, hstored⟩
    rcases hout with h | h | h
    · omega
    · omega
    · exact Bool.false_ne_true (h.symm.trans hstored)

/-- Settles O40: the highest address decides between the halt and a store of the registers. -/
theorem blockStoreWritesRegisters : Obligations.BlockStoreWritesRegisters := by
  intro x
  refine ⟨decodeWord_ldMemVx x, fun s hout => ?halts, fun s hfits => ?stores⟩
  case halts =>
    exact ⟨_, exec_of_boundsFail (i := .ldMemVx x) (decide_eq_true hout), rfl, unchangedExcept_mode_setMode s _⟩
  case stores =>
    exact ⟨_, exec_ldMemVx_of_fits hfits, unchangedExcept_mem_setMem s _, read_storeFrom_regsUpTo hfits⟩

/-- Settles O41: the highest address decides between the halt and a load of the registers. -/
theorem blockLoadReadsRegisters : Obligations.BlockLoadReadsRegisters := by
  intro x
  refine ⟨decodeWord_ldVxMem x, fun s hout => ?halts, fun s hfits => ?loads⟩
  case halts =>
    exact ⟨_, exec_of_boundsFail (i := .ldVxMem x) (decide_eq_true hout), rfl, unchangedExcept_mode_setMode s _⟩
  case loads =>
    exact ⟨_, exec_ldVxMem_of_fits hfits, unchangedExcept_regs_setRegsFrom s 0 _, reg_setRegsFrom_blockBytes s s x⟩

/-- Settles O42: the load reads, at each address of the block, what the store left there. -/
theorem blockStoreThenLoadRestores : Obligations.BlockStoreThenLoadRestores := by
  intro x s t u hfits hstored hstore hi hmem
  obtain rfl := Host.Outcome.next.inj ((exec_ldMemVx_of_fits hfits).symm.trans hstore)
  obtain ⟨hblock, -⟩ := read_storeFrom_regsUpTo hfits
  refine ⟨_, exec_ldVxMem_of_fits (s := u) (hi ▸ hfits), fun r => ?_⟩
  rw [reg_setRegsFrom_blockBytes]
  by_cases hr : r ≤ x
  · rw [if_pos hr, if_pos hr, hi, hmem, State.setMem_mem, hblock r hr (hstored r hr)]
  · rw [if_neg hr, if_neg hr]

end Sys2Proof.Machine
end

/-! ## Draws, continued -/

section
namespace Sys2Proof.Machine

/-! ### Where a draw halts (R107) -/

theorem drawHalts_iff (y : Reg) (n : RowCount) (s : State) :
    drawHalts y n s = true ↔
      ∃ k : Nat, k < n.val ∧ (s.reg y).toNat % 32 + k < 32 ∧ 4096 ≤ s.i.toNat + k := by
  have hrow : spriteRow y s = (s.reg y).toNat % 32 := rfl
  simp only [drawHalts, spriteRows, hrow, Config.height, Config.memSize, decide_eq_true_eq]
  constructor
  · rintro ⟨hsome, hout⟩
    exact ⟨min n.val (32 - (s.reg y).toNat % 32) - 1, by omega, by omega, by omega⟩
  · rintro ⟨k, hn, hedge, hout⟩
    omega

/-- Settles O46: the last row inside the grid has the highest byte, and it alone is checked. -/
theorem drawHaltsOutsideMemory : Obligations.DrawHaltsOutsideMemory := by
  intro x y n s
  refine ⟨(drawHalts_iff y n s).symm, fun hhalts => ?_, fun hcompletes => ?_⟩
  · exact ⟨_, exec_of_boundsFail (i := .drw x y n) hhalts, rfl, unchangedExcept_mode_setMode s _⟩
  · exact ⟨_, exec_drw_of_drawHalts_eq_false x hcompletes, rfl⟩

/-! ### The pixels of a draw (R106, R107) -/

/-- The rows drawn, each from its byte, cover what the sprite covers. -/
theorem rowCovers_spriteBytes (x y : Reg) (n : RowCount) (s : State) (r c : Nat) :
    (decide (spriteRow y s ≤ r ∧ r < spriteRow y s + (spriteBytes y n s).length) &&
      rowCovers (spriteColumn x s) ((spriteBytes y n s)[r - spriteRow y s]?.getD 0) c) = spriteCovers x y n s r c := by
  rw [spriteBytes_length, spriteCovers, rowCovers, Bool.and_assoc]
  by_cases hin : spriteRow y s ≤ r ∧ r < spriteRow y s + spriteRows y n s
  · have hgrid : spriteRow y s ≤ r ∧ r < spriteRow y s + n.val ∧ r < Config.height := by
      simp only [spriteRows, Config.height] at hin ⊢
      omega
    have hoffset : r - spriteRow y s < spriteRows y n s := by omega
    have hbyte : (spriteBytes y n s)[r - spriteRow y s]? = some (s.mem.read (s.i.toNat + (r - spriteRow y s))) := by
      simp [spriteBytes, hoffset]
    simp only [hin, hgrid, hbyte, and_self, decide_true, Bool.true_and, Option.getD_some, Config.width]
  · have hgrid : ¬(spriteRow y s ≤ r ∧ r < spriteRow y s + n.val ∧ r < Config.height) := by
      simp only [spriteRows, Config.height] at hin ⊢
      omega
    simp only [hin, hgrid, decide_false, Bool.false_and]

theorem pixel_drawnCanvas (x y : Reg) (n : RowCount) (s : State) (r c : Nat) :
    (drawnCanvas x y n s).disp.pixel r c = (s.disp.pixel r c ^^ spriteCovers x y n s r c) := by
  obtain ⟨hpixel, -⟩ := drawRows_spec (spriteBytes y n s) (spriteRow y s) (spriteColumn x s)
    { disp := s.disp, hit := false } (spriteRow_add_length_le y n s)
  rw [drawnCanvas, hpixel, rowCovers_spriteBytes]

/-- Settles O47: the grid of the completed draw, pixel by pixel, and the frames of its three writes. -/
theorem drawInvertsTheSpritesPixels : Obligations.DrawInvertsTheSpritesPixels := by
  intro x y n
  refine ⟨decodeWord_drw x y n, fun s hcompletes => ?_⟩
  have hframe := ((unchangedExcept_disp_setDisp s (drawnCanvas x y n s).disp).append
    (unchangedExcept_regs_setReg _ regF (collisionFlag (drawnCanvas x y n s).hit))).append
    (unchangedExcept_dirty_setDirty _ true)
  exact ⟨_, exec_drw_of_drawHalts_eq_false x hcompletes, pixel_drawnCanvas x y n s, rfl,
    (Effect.drw x hcompletes).regsUnchangedExcept, hframe.mono (by simp)⟩

/-! ### The same sprite twice (R109) -/

theorem spriteRow_congr {y : Reg} {s u : State} (hy : u.reg y = s.reg y) : spriteRow y u = spriteRow y s := by
  rw [spriteRow, hy, spriteRow]

theorem spriteColumn_congr {x : Reg} {s u : State} (hx : u.reg x = s.reg x) :
    spriteColumn x u = spriteColumn x s := by
  rw [spriteColumn, hx, spriteColumn]

theorem drawHalts_congr {y : Reg} {s u : State} (n : RowCount) (hi : u.i = s.i) (hy : u.reg y = s.reg y) :
    drawHalts y n u = drawHalts y n s := by
  have hrows : spriteRows y n u = spriteRows y n s := by rw [spriteRows, spriteRow_congr hy, spriteRows]
  rw [drawHalts, hrows, hi, drawHalts]

theorem spriteCovers_congr {x y : Reg} {s u : State} (n : RowCount) (hmem : State.agrees .mem s u) (hi : u.i = s.i)
    (hx : u.reg x = s.reg x) (hy : u.reg y = s.reg y) (r c : Nat) :
    spriteCovers x y n u r c = spriteCovers x y n s r c := by
  rw [spriteCovers, spriteRow_congr hy, spriteColumn_congr hx, hi, hmem, spriteCovers]

/-- Settles O49: both draws invert the same pixels, and the second turns off those that the first turned on. -/
theorem drawingTwiceRestoresTheDisplay : Obligations.DrawingTwiceRestoresTheDisplay := by
  intro x y n s t u hcompletes hdraw hmem hi hdisp hx hy
  obtain rfl := Host.Outcome.next.inj ((exec_drw_of_drawHalts_eq_false x hcompletes).symm.trans hdraw)
  have hagain : drawHalts y n u = false := (drawHalts_congr (s := s) n hi hy).trans hcompletes
  have hcovers : ∀ r c : Nat, spriteCovers x y n u r c = spriteCovers x y n s r c :=
    spriteCovers_congr n hmem hi hx hy
  have hfirst : ∀ r c : Nat, u.disp.pixel r c = (s.disp.pixel r c ^^ spriteCovers x y n s r c) := fun r c => by
    rw [hdisp]
    exact pixel_drawnCanvas x y n s r c
  obtain ⟨w, hdrawn, hon, hoff⟩ := collisionFlagIsExact x y n u hagain
  obtain rfl := Host.Outcome.next.inj ((exec_drw_of_drawHalts_eq_false x hagain).symm.trans hdrawn)
  have hsecond : ∀ r c : Nat, (drawnCanvas x y n u).disp.pixel r c = s.disp.pixel r c := fun r c => by
    rw [pixel_drawnCanvas, hfirst, hcovers, Bool.xor_assoc, Bool.xor_self, Bool.xor_false]
  refine ⟨_, hdrawn, hsecond, ?_, fun hset => hoff fun r c hlit => ?_⟩
  · rintro ⟨r, c, hcover, hclear⟩
    exact hon ⟨r, c, by rw [hfirst, hcover, hclear, Bool.false_xor], (hsecond r c).trans hclear⟩
  · refine (hsecond r c).trans ?_
    cases hcover : spriteCovers x y n s r c with
    | true => exact hset r c hcover
    | false => rwa [hfirst, hcover, Bool.xor_false] at hlit

end Sys2Proof.Machine
end

/-! ## The host's operations (60_exceptions.md, 70_reset_and_hazards.md) -/

section
namespace Sys2Proof.Machine

/-! ### Reset (R141) -/

theorem resetByte_fontBase_add (j : Fin 80) : resetByte (Config.fontBase + j.val) = Config.fontData[j.val] := by
  have hin : inFont (Config.fontBase + j.val) = true :=
    (inFont_iff _).mpr ⟨Nat.le_add_right _ _, Nat.add_lt_add_left j.isLt _⟩
  simp [resetByte, hin]

theorem resetByte_of_outside_font {a : Nat} (h : a < Config.fontBase ∨ Config.fontBase + 80 ≤ a) :
    resetByte a = 0 := by
  have hout : inFont a = false := by
    rw [← Bool.not_eq_true, inFont_iff, Config.fontSize]
    omega
  simp [resetByte, hout]

/-- Settles O53: every element but memory is its reset value, and an empty memory reads as the font and zeros. -/
theorem resetRestoresEveryElement : Obligations.ResetRestoresEveryElement := by
  intro s
  refine ⟨_, apply_reset s, unchangedExcept_draws_setDraws State.reset s.draws, rfl, rfl, fun r => ?_, rfl, rfl, rfl,
    rfl, Display.pixel_blank, rfl, rfl, rfl, resetByte_fontBase_add, fun a ha => resetByte_of_outside_font ha⟩
  exact Vector.getElem_replicate _

/-! ### Ticks (R127) -/

theorem countDown_toNat (b : Byte) : (countDown b).toNat = b.toNat - 1 := by
  have hbyte := b.isLt
  rw [countDown]
  split
  · rw [BitVec.toNat_sub]
    simp
    omega
  · omega

theorem tick_of_running {s : State} (h : s.mode = .running) :
    tick s = (s.setDt (countDown s.dt)).setSt (countDown s.st) := by
  simp only [tick, h]

theorem tick_of_not_running {s : State} (h : s.mode ≠ .running) : tick s = s := by
  cases hmode : s.mode with
  | running => exact absurd hmode h
  | blocked x => simp only [tick, hmode]
  | halted reason => simp only [tick, hmode]

/-- Settles O54: a tick is two counts down while Running and nothing otherwise. -/
theorem tickCountsBothTimersDown : Obligations.TickCountsBothTimersDown := by
  intro s
  refine ⟨tick s, rfl, ?_⟩
  by_cases hrun : s.mode = .running
  · rw [tick_of_running hrun]
    exact ⟨(unchangedExcept_dt_setDt s _).append (unchangedExcept_st_setSt _ _),
      fun _ => ⟨countDown_toNat s.dt, countDown_toNat s.st⟩, fun h => absurd hrun h⟩
  · rw [tick_of_not_running hrun]
    exact ⟨UnchangedExcept.refl _ s, fun h => absurd h hrun, fun _ => ⟨rfl, rfl⟩⟩

/-! ### Key events (R128 to R130) -/

theorem State.isHalted_iff (s : State) : s.isHalted = true ↔ ∃ reason : HaltReason, s.mode = .halted reason := by
  cases hmode : s.mode <;> simp [State.isHalted, hmode]

theorem State.isHalted_of_mode {s : State} {reason : HaltReason} (h : s.mode = .halted reason) : s.isHalted = true :=
  s.isHalted_iff.mpr ⟨reason, h⟩

theorem apply_pressKey_of_out_of_range {code : Nat} (h : 16 ≤ code) (s : State) :
    State.apply (.pressKey code) s = .refused (.keyCodeOutOfRange code) :=
  dif_neg (Nat.not_lt.mpr h)

theorem pressCode_of_running {s : State} (k : KeyCode) (h : s.mode = .running) : pressCode k s = s.setKey (some k) := by
  simp only [pressCode, h]

theorem pressCode_of_isHalted {s : State} (k : KeyCode) (h : s.isHalted = true) : pressCode k s = s := by
  obtain ⟨reason, hmode⟩ := s.isHalted_iff.mp h
  simp only [pressCode, hmode]

theorem releaseKey_of_live {s : State} (h : s.isHalted = false) : releaseKey s = s.setKey none := by
  cases hmode : s.mode with
  | running => simp only [releaseKey, hmode]
  | blocked x => simp only [releaseKey, hmode]
  | halted reason => exact absurd (h.symm.trans (State.isHalted_of_mode hmode)) Bool.false_ne_true

theorem releaseKey_of_isHalted {s : State} (h : s.isHalted = true) : releaseKey s = s := by
  obtain ⟨reason, hmode⟩ := s.isHalted_iff.mp h
  simp only [releaseKey, hmode]

/-- Settles O55: each event in each mode is the writes of its own case. -/
theorem keyEventsFollowTheMode : Obligations.KeyEventsFollowTheMode := by
  intro s
  refine ⟨fun code hcode => apply_pressKey_of_out_of_range hcode s,
    fun k => ⟨_, apply_pressKey k s, fun hrun => ?latches, fun x hblocked => ?wakes, pressCode_of_isHalted k⟩,
    ⟨_, rfl, fun hlive => ?releases, releaseKey_of_isHalted⟩⟩
  case latches =>
    rw [pressCode_of_running k hrun]
    exact ⟨rfl, unchangedExcept_key_setKey s _⟩
  case wakes =>
    rw [pressCode_of_blocked k hblocked]
    have hframe := ((unchangedExcept_regs_setReg s x (keyByte k)).append
      (unchangedExcept_mode_setMode _ .running)).append (unchangedExcept_key_setKey _ none)
    refine ⟨?_, rfl, rfl, regsUnchangedExcept_setReg s x _, hframe⟩
    simp
  case releases =>
    rw [releaseKey_of_live hlive]
    exact ⟨rfl, unchangedExcept_key_setKey s none⟩

/-! ### The host's halt (R133) -/

theorem externalHalt_of_live (message : String) {s : State} (h : s.isHalted = false) :
    externalHalt message s = s.setMode (.halted (.external message)) := by
  cases hmode : s.mode with
  | running => simp only [externalHalt, hmode]
  | blocked x => simp only [externalHalt, hmode]
  | halted reason => exact absurd (h.symm.trans (State.isHalted_of_mode hmode)) Bool.false_ne_true

theorem externalHalt_of_isHalted (message : String) {s : State} (h : s.isHalted = true) :
    externalHalt message s = s := by
  obtain ⟨reason, hmode⟩ := s.isHalted_iff.mp h
  simp only [externalHalt, hmode]

/-- Settles O56: the request writes the mode of a machine that is not halted, and nothing of one that is. -/
theorem haltRequestKeepsTheFirstReason : Obligations.HaltRequestKeepsTheFirstReason := by
  intro message s
  refine ⟨externalHalt message s, rfl, ?_⟩
  cases hhalted : s.isHalted with
  | true =>
    rw [externalHalt_of_isHalted message hhalted]
    exact ⟨nofun, fun _ => rfl, UnchangedExcept.refl _ s⟩
  | false =>
    rw [externalHalt_of_live message hhalted]
    exact ⟨fun _ => rfl, nofun, unchangedExcept_mode_setMode s _⟩

/-! ### A program image that is too long (R143) -/

/-- Settles O58: the load is the reset and one write of the mode. -/
theorem longProgramHalts : Obligations.LongProgramHalts := by
  intro bytes s t hlong hreset
  obtain rfl : resetCore s = t := Host.Outcome.next.inj ((apply_reset s).symm.trans hreset)
  exact ⟨_, congrArg Host.Outcome.next (loadProgram_of_too_long hlong s), rfl, unchangedExcept_mode_setMode _ _⟩

/-! ### The halted core (R120 to R122) -/

/-- One operation short of a reset or a load leaves a halted state as it is, or clears its dirty mark. -/
theorem apply_of_isHalted {op : HostOp} {s t : State} (hhalted : s.isHalted = true) (hreset : op ≠ .reset)
    (hload : ∀ bytes : List Byte, op ≠ .loadProgram bytes) (h : State.apply op s = .next t) :
    t = s ∨ t = s.setDirty false := by
  have hidle : s.mode ≠ .running := by
    obtain ⟨reason, hmode⟩ := s.isHalted_iff.mp hhalted
    simp [hmode]
  cases op with
  | cycle => exact .inl (Host.Outcome.next.inj ((step_of_not_running hidle).symm.trans h)).symm
  | tick => exact .inl ((Host.Outcome.next.inj h).symm.trans (tick_of_not_running hidle))
  | pressKey code =>
    obtain ⟨k, -, rfl⟩ := apply_pressKey_eq_next h
    exact .inl (pressCode_of_isHalted k hhalted)
  | releaseKey => exact .inl ((Host.Outcome.next.inj h).symm.trans (releaseKey_of_isHalted hhalted))
  | halt message => exact .inl ((Host.Outcome.next.inj h).symm.trans (externalHalt_of_isHalted message hhalted))
  | clearDirty => exact .inr (Host.Outcome.next.inj h).symm
  | reset => exact absurd rfl hreset
  | loadProgram bytes => exact absurd rfl (hload bytes)
  | read => exact .inl (Host.Outcome.next.inj h).symm

/-- Settles O59: by induction on the sequence, since a clear of the dirty mark keeps the halt and is idempotent. -/
theorem haltedCoreIsQuiescent : Obligations.HaltedCoreIsQuiescent := by
  intro ops
  induction ops with
  | nil =>
    intro s t _ _ h
    exact .inl (Host.Outcome.next.inj h).symm
  | cons op rest ih =>
    intro s t hhalted hops h
    obtain ⟨⟨hreset, hload⟩, hrest⟩ := List.forall_mem_cons.mp hops
    obtain ⟨u, hop, hall⟩ := applyAll_cons_eq_next h
    rcases apply_of_isHalted hhalted hreset hload hop with rfl | rfl
    · exact ih u t hhalted hrest hall
    · have hcleared : t = s.setDirty false ∨ t = (s.setDirty false).setDirty false :=
        ih (s.setDirty false) t hhalted hrest hall
      exact .inr (hcleared.elim id id)

/-! ### Reads and the views of the mode (R30, R131) -/

/-- Settles O60: each view is a function of the mode, which has one value. -/
theorem hostReadsAndDirtyMark : Obligations.HostReadsAndDirtyMark := by
  intro s
  refine ⟨rfl, ⟨_, rfl, rfl, unchangedExcept_dirty_setDirty s false⟩, ?_⟩
  cases hmode : s.mode with
  | running => simp [State.view, State.isHalted, State.blockedOnKey, State.haltMessage, State.waitTarget, hmode]
  | blocked x => simp [State.view, State.isHalted, State.blockedOnKey, State.haltMessage, State.waitTarget, hmode]
  | halted reason => simp [State.view, State.isHalted, State.blockedOnKey, State.haltMessage, State.waitTarget, hmode]

end Sys2Proof.Machine
end
